-- ==== Sys2Proof/Word.lean ====
section
/-! DEFINITION. The bit-vector widths of SNTPCODEC: one name for each width that crosses a port or fills a register. -/

namespace Sys2Proof

/-- One byte of the message buffer (10_state.md R20). -/
abbrev Byte := BitVec 8

/-- The selector field `sel` of a command word (30_encoding.md R82). -/
abbrev Sel := BitVec 8

/-- `wdata`, `rdata` and the tag: XLEN = TAGW = 64 bits (00_scope.md R9). -/
abbrev Data := BitVec 64

/-- One command word, CMDW = 80 bits (30_encoding.md R82). -/
abbrev CmdWord := BitVec 80

/-- One response word, RSPW = 68 bits (30_encoding.md R83). -/
abbrev RspWord := BitVec 68

/-- A whole message on `msg_in` or `msg_out`, MSG_BITS = 384 bits (20_memory.md R54). -/
abbrev MsgWord := BitVec 384

end Sys2Proof
end

