-- ==== Sys2Proof/Syntax.lean ====
section
/-! DEFINITION. The eleven commands (30_encoding.md R86), one constructor per row of opcode_table.json. An operand field a
command does not use must be 0 in its word (R87), so it is no argument here. -/

namespace Sys2Proof

/-- A command with its operands, each operand the field of the word it travels in (30_encoding.md R87: an unsigned integer of
that width). A selector at or above its bound is a legal command that faults when it is performed. -/
inductive Instr where
  /-- `GETF`: read the field with Field Table index `sel` (40_codec_ops.md R111). -/
  | getf (sel : Sel)
  /-- `SETF`: write `wdata` to the field with index `sel` (R112). -/
  | setf (sel : Sel) (wdata : Data)
  /-- `GETB`: read byte `sel` (R113). -/
  | getb (sel : Sel)
  /-- `SETB`: write `wdata` to byte `sel` (R114). -/
  | setb (sel : Sel) (wdata : Data)
  /-- `MCLR`: begin an empty message (R115). -/
  | mclr
  /-- `MLOAD`: load the message on `msg_in`, with its source-address tag (R116). -/
  | mload (tag : Data)
  /-- `TAGSET`: attach a tag (R117). -/
  | tagset (tag : Data)
  /-- `TAGGET`: read the tag (R118). -/
  | tagget
  /-- `P2N`: POSIX seconds, a binary64 pattern, to an NtpTimestamp64 (41_timestamp_ops.md R147). -/
  | p2n (wdata : Data)
  /-- `N2P`: an NtpTimestamp64 to POSIX seconds (R148). -/
  | n2p (wdata : Data)
  /-- `RDSTAT`: read the status view (43_system_ops.md R200). -/
  | rdstat
  deriving DecidableEq, Repr

end Sys2Proof
end

