-- ==== Sys2Proof/Decode.lean ====
section
/-! DEFINITION. Decoding of an 80-bit command word (30_encoding.md R82, R84, R87, R88), the encoder, and the rows of
opcode_table.json as data. Decoding is total: a word is one of the eleven commands or it is illegal, by a named reason. -/

namespace Sys2Proof

/-- Why a word is illegal (30_encoding.md R88). -/
inductive Illegal where
  /-- `rsv` is not 0. -/
  | rsvNonZero
  /-- `op` is 0x0 or 0xC to 0xF. -/
  | reservedOp
  /-- `sel` is not 0 in a command that has no selector. -/
  | selNonZero
  /-- `wdata` is not 0 in a command that has no data operand. -/
  | wdataNonZero
  deriving DecidableEq, Repr

/-- `op`, bits 79:76 of a command word (R82). -/
def wordOp (w : CmdWord) : BitVec 4 := w.extractLsb' 76 4

/-- `rsv`, bits 75:72 (R82). -/
def wordRsv (w : CmdWord) : BitVec 4 := w.extractLsb' 72 4

/-- `sel`, bits 71:64 (R82). -/
def wordSel (w : CmdWord) : Sel := w.extractLsb' 64 8

/-- `wdata`, bits 63:0 (R82). -/
def wordData (w : CmdWord) : Data := w.extractLsb' 0 64

/-- A command without a data operand: `wdata` must be 0 (R87). -/
def needsNoData (wdata : Data) (i : Instr) : Except Illegal Instr :=
  if wdata = 0 then .ok i else .error .wdataNonZero

/-- A command without a selector: `sel` must be 0 (R87). -/
def needsNoSel (sel : Sel) (r : Except Illegal Instr) : Except Illegal Instr :=
  if sel = 0 then r else .error .selNonZero

/-- The command with operation code `op` (30_encoding.md R86), once `rsv` is known to be 0. -/
def decodeOp (op : BitVec 4) (sel : Sel) (wdata : Data) : Except Illegal Instr :=
  match op.toNat with
  | 0x1 => needsNoData wdata (.getf sel)
  | 0x2 => .ok (.setf sel wdata)
  | 0x3 => needsNoData wdata (.getb sel)
  | 0x4 => .ok (.setb sel wdata)
  | 0x5 => needsNoSel sel (needsNoData wdata .mclr)
  | 0x6 => needsNoSel sel (.ok (.mload wdata))
  | 0x7 => needsNoSel sel (.ok (.tagset wdata))
  | 0x8 => needsNoSel sel (needsNoData wdata .tagget)
  | 0x9 => needsNoSel sel (.ok (.p2n wdata))
  | 0xA => needsNoSel sel (.ok (.n2p wdata))
  | 0xB => needsNoSel sel (needsNoData wdata .rdstat)
  | _ => .error .reservedOp

/-- Decode a command word (30_encoding.md R84): a command with its operands, or the reason it is illegal. -/
def decode (w : CmdWord) : Except Illegal Instr :=
  if wordRsv w = 0 then decodeOp (wordOp w) (wordSel w) (wordData w) else .error .rsvNonZero

/-- The word `{op, 0, sel, wdata}` (30_encoding.md R82, R90). -/
def commandWord (op : BitVec 4) (sel : Sel) (wdata : Data) : CmdWord :=
  op ++ (0 : BitVec 4) ++ sel ++ wdata

/-- The word of a command, its unused fields 0 (30_encoding.md R86, R87). -/
def encode : Instr → CmdWord
  | .getf sel => commandWord 0x1 sel 0
  | .setf sel wdata => commandWord 0x2 sel wdata
  | .getb sel => commandWord 0x3 sel 0
  | .setb sel wdata => commandWord 0x4 sel wdata
  | .mclr => commandWord 0x5 0 0
  | .mload tag => commandWord 0x6 0 tag
  | .tagset tag => commandWord 0x7 0 tag
  | .tagget => commandWord 0x8 0 0
  | .p2n wdata => commandWord 0x9 0 wdata
  | .n2p wdata => commandWord 0xA 0 wdata
  | .rdstat => commandWord 0xB 0 0

/-- One row of opcode_table.json: a word `w` is the row's when `w AND mask = bits`. -/
structure OpcodeRow where
  mnemonic : String
  bits : CmdWord
  mask : CmdWord
  deriving DecidableEq, Repr

/-- The rows of opcode_table.json, copied digit by digit from the file, so that `decode` can be held against it
(30_encoding.md R84). -/
def opcodeRows : List OpcodeRow :=
  [⟨"GETF", 0x10000000000000000000, 0xFF00FFFFFFFFFFFFFFFF⟩,
   ⟨"SETF", 0x20000000000000000000, 0xFF000000000000000000⟩,
   ⟨"GETB", 0x30000000000000000000, 0xFF00FFFFFFFFFFFFFFFF⟩,
   ⟨"SETB", 0x40000000000000000000, 0xFF000000000000000000⟩,
   ⟨"MCLR", 0x50000000000000000000, 0xFFFFFFFFFFFFFFFFFFFF⟩,
   ⟨"MLOAD", 0x60000000000000000000, 0xFFFF0000000000000000⟩,
   ⟨"TAGSET", 0x70000000000000000000, 0xFFFF0000000000000000⟩,
   ⟨"TAGGET", 0x80000000000000000000, 0xFFFFFFFFFFFFFFFFFFFF⟩,
   ⟨"P2N", 0x90000000000000000000, 0xFFFF0000000000000000⟩,
   ⟨"N2P", 0xA0000000000000000000, 0xFFFF0000000000000000⟩,
   ⟨"RDSTAT", 0xB0000000000000000000, 0xFFFFFFFFFFFFFFFFFFFF⟩]

/-- The word is one of the row's. -/
def OpcodeRow.matchesWord (r : OpcodeRow) (w : CmdWord) : Bool :=
  w &&& r.mask == r.bits

/-- The mnemonic of a command's row (30_encoding.md R86). -/
def mnemonic : Instr → String
  | .getf _ => "GETF"
  | .setf _ _ => "SETF"
  | .getb _ => "GETB"
  | .setb _ _ => "SETB"
  | .mclr => "MCLR"
  | .mload _ => "MLOAD"
  | .tagset _ => "TAGSET"
  | .tagget => "TAGGET"
  | .p2n _ => "P2N"
  | .n2p _ => "N2P"
  | .rdstat => "RDSTAT"

/-- The command whose word, of `nbits` bits numbered as opcode_table.json numbers them (bit 0 the least significant of the one
80-bit word), is `w`; bits of the word above `nbits` are 0. -/
def decodeTableWord (nbits w : Nat) : Option Instr :=
  if nbits ≤ 80 then (decode (BitVec.ofNat 80 (w % 2 ^ nbits))).toOption else none

end Sys2Proof
end

