-- ==== Sys2Proof/Config.lean ====
section
/-! DEFINITION. The parameters of the block (00_scope.md R9): message size, Field Table and epoch offset. Nothing here is
changed by a command or by reset (10_state.md R26, R28, R33). The spec leaves no value of the block open, so there is no
free value. -/

namespace Sys2Proof

/-- One Field Table entry: a name, a wire bit offset and a bit length (00_scope.md R15, R11: offsets count from the most
significant bit of byte 0). -/
structure MessageField where
  name : String
  off : Nat
  len : Nat
  deriving DecidableEq, Repr

namespace Config

/-- MSG_BYTES (R9): the size of the message buffer in bytes. -/
abbrev msgBytes : Nat := 48

/-- MSG_BITS (R9): the size of the message in wire bits. -/
abbrev msgBits : Nat := 384

/-- NFIELDS (R9): the number of Field Table entries. -/
abbrev nFields : Nat := 13

/-- MAX_FIELD_BITS (R9): the widest field a table may hold. -/
abbrev maxFieldBits : Nat := 64

/-- FIELD_TABLE (10_state.md R26), index 0 first, in the source's order (log 11). -/
def fieldTable : List MessageField :=
  [⟨"LI", 0, 2⟩, ⟨"VN", 2, 3⟩, ⟨"Mode", 5, 3⟩, ⟨"Stratum", 8, 8⟩, ⟨"Poll", 16, 8⟩, ⟨"Precision", 24, 8⟩,
   ⟨"RootDelay", 32, 32⟩, ⟨"RootDispersion", 64, 32⟩, ⟨"ReferenceIdentifier", 96, 32⟩,
   ⟨"ReferenceTimestamp", 128, 64⟩, ⟨"OriginateTimestamp", 192, 64⟩, ⟨"ReceiveTimestamp", 256, 64⟩,
   ⟨"TransmitTimestamp", 320, 64⟩]

/-- EPOCH_OFFSET (41_timestamp_ops.md R142): seconds from the NTP epoch to the POSIX epoch. PRESUMED, unsafe: the number is
from general knowledge, as the spec itself marks it (log 9). -/
abbrev epochOffset : Nat := 2208988800

/-- `K`, the epoch offset as a 32.32 fixed-point constant (R142). -/
abbrev epochK : Nat := epochOffset * 2 ^ 32

end Config

end Sys2Proof
end

