-- ==== Sys2Proof/Machine/State.lean ====
section
/-! DEFINITION. The state of one SNTPCODEC block: the four registers of 10_state.md R20 to R23, the ports of 30_encoding.md R80
that hold a value between steps, and the host's presented moves. Also the reasons a step can stop, none of which a command
reaches. -/

namespace Sys2Proof.Machine

/-- The contents of BUF as (byte index, byte) cells, in rising order, listing no byte that is 0x00: an unlisted byte reads as
0x00, its reset value (10_state.md R20, R33; log 6). -/
abbrev Memory := List Host.Cell

/-- One response: `status` and `rdata` of the response word (30_encoding.md R83). -/
structure Response where
  status : BitVec 4
  rdata : Data
  deriving DecidableEq, Repr

/-- What the host can do to the block between two commands (20_memory.md R64, 42_host_sequences.md R188). Sampling `msg_out`
changes nothing and is the view `State.msgOut`. -/
inductive HostMove where
  /-- Present a command word, with whatever `msg_in` shows meanwhile; only MLOAD reads it (R64). -/
  | command (word : CmdWord) (msgIn : MsgWord)
  /-- Assert `rst` (70_reset_and_hazards.md R240). -/
  | reset
  deriving DecidableEq, Repr

/-- Faults of the MODEL. The block's own faults (60_exceptions.md R210) are no member: they are next states that latch FAULT
and answer a response (R222). -/
inductive Fault where
  /-- An access of bytes `addr .. addr+n-1` that are not all inside BUF, or of no byte, or of a value wider than they are:
  MemRead and MemWrite are not defined there (00_scope.md R13). Raised by `bufRead` and `bufWrite`. Safe: the model stops where
  the spec gives no effect, and no command on the standard Field Table reaches it. -/
  | outsideBuffer (addr n : Nat)
  deriving DecidableEq, Repr

/-- Refusals of the model. -/
inductive Refusal where
  /-- No meaning yet for the instruction; raised in exec's arm only. Safe. No arm uses it. -/
  | notModelled (mnemonic : String)
  /-- `rne64` of a value outside its range, which the spec leaves undefined and a model refuses (41_timestamp_ops.md R146).
  Raised by N2P's meaning. Safe: no operand of N2P reaches it. -/
  | rne64Undefined
  deriving DecidableEq, Repr

/-- The block and its ports. -/
structure State where
  /-- BUF, the 48-byte message buffer (10_state.md R20). -/
  buf : Memory
  /-- TAG, the source-address tag (R21). -/
  tag : Data
  /-- TAG_VALID (R22). -/
  tagValid : Bool
  /-- FAULT, the code of the first fault since reset, 0 if none (R23; log 5). -/
  fault : BitVec 4
  /-- The `rsp` port: the response to the last command, none while no command has been answered since power-on
  (30_encoding.md R80; log 4). -/
  rsp : Option Response
  /-- The `msg_in` port, as shown with the command being performed (20_memory.md R54; log 7). -/
  msgIn : MsgWord
  /-- The model's own field: the moves the host is about to make, the next one first (30_encoding.md R81, 20_memory.md R62;
  log 1). -/
  inputs : List HostMove
  deriving DecidableEq, Repr

/-- The block right after reset (10_state.md R33, 70_reset_and_hazards.md R240), with nothing presented yet. DESIGN CHOICE for
the three port fields: no response, `msg_in` 0, no move queued (logs 4, 7, 1). -/
def State.reset : State where
  buf := []
  tag := 0
  tagValid := false
  fault := 0
  rsp := none
  msgIn := 0
  inputs := []

end Sys2Proof.Machine
end

