-- ==== Sys2Proof/Machine/Flags.lean ====
section
/-! DEFINITION. The two flags of the block and the status view assembled from them (10_state.md R22, R23, R29, R30): TAG_VALID
and the predicate `FAULT != 0`. No command sets a flag from the value it computes. -/

namespace Sys2Proof.Machine

/-- The block is halted exactly when FAULT is not 0 (10_state.md R23). -/
def State.halted (s : State) : Bool := s.fault != 0

/-- STAT: 55 zero bits, TAG_VALID, 4 zero bits, FAULT (10_state.md R29, 43_system_ops.md R200). -/
def State.stat (s : State) : Data :=
  (0 : BitVec 55) ++ BitVec.ofBool s.tagValid ++ (0 : BitVec 4) ++ s.fault

/-- Attach a tag: TAG takes it and TAG_VALID becomes 1 (10_state.md R21, R22). -/
def State.attachTag (s : State) (tag : Data) : State :=
  { s with tag := tag, tagValid := true }

/-- Drop the tag: TAG and TAG_VALID become 0 (10_state.md R21, R22). -/
def State.dropTag (s : State) : State :=
  { s with tag := 0, tagValid := false }

end Sys2Proof.Machine
end

