-- ==== Sys2Proof/Machine/Ops.lean ====
section
/-! DEFINITION. The named operations over the buffer, the ports and FAULT: reading and writing bytes and big-endian byte ranges
(00_scope.md R13), the message ports (20_memory.md R54), answering a command, FAULT ENTRY (60_exceptions.md R222), the halted
gate (R223), an illegal word (R215), reset (70_reset_and_hazards.md R240) and presenting a command (30_encoding.md R81). -/

namespace Sys2Proof.Machine

/-! ### The buffer -/

/-- `BUF[a]`; a byte that is not listed holds 0x00 (10_state.md R20, R33). -/
def Memory.read : Memory → Nat → Byte
  | [], _ => 0
  | (k, b) :: rest, a => if k = a then b else Memory.read rest a

/-- The cells without those of byte `a`. -/
def Memory.erase (m : Memory) (a : Nat) : Memory :=
  m.filter fun c => c.1 != a

/-- The cells with one for byte `a`, placed before the first larger index. -/
def Memory.place (a : Nat) (b : Byte) : Memory → Memory
  | [] => [(a, b)]
  | (k, c) :: rest => if a < k then (a, b) :: (k, c) :: rest else (k, c) :: Memory.place a b rest

/-- `BUF[a] <- b`, keeping the canonical form: 0x00 is what an unlisted byte reads as, so it is never listed. -/
def Memory.write (m : Memory) (a : Nat) (b : Byte) : Memory :=
  if b = 0 then m.erase a else Memory.place a b (m.erase a)

/-- The canonical form: rising byte indices, all inside BUF, and no byte 0x00 listed. -/
abbrev Memory.wf (m : Memory) : Prop :=
  m.Pairwise (fun c d => c.1 < d.1) ∧ ∀ c ∈ m, c.1 < Config.msgBytes ∧ c.2 ≠ 0

/-- The big-endian integer of bytes `addr .. addr+n-1` (00_scope.md R13 MemRead, 20_memory.md R51). -/
def Memory.readBE (m : Memory) (addr : Nat) : Nat → Nat
  | 0 => 0
  | n + 1 => Memory.readBE m addr n * 256 + (m.read (addr + n)).toNat

/-- Write the low `8 * n` bits of `v` to bytes `addr .. addr+n-1`, big-endian (R13 MemWrite). -/
def Memory.writeBE (m : Memory) (addr : Nat) : Nat → Nat → Memory
  | 0, _ => m
  | n + 1, v => (Memory.writeBE m addr n (v / 256)).write (addr + n) (BitVec.ofNat 8 v)

/-- `MemRead(addr, n)`, defined only for at least one byte, all inside BUF (R13). -/
def bufRead (s : State) (addr n : Nat) : Option Nat :=
  if 1 ≤ n ∧ addr + n ≤ Config.msgBytes then some (s.buf.readBE addr n) else none

/-- `MemWrite(addr, n, v)`, defined only for at least one byte, all inside BUF, and `v < 256^n` (R13). -/
def bufWrite (s : State) (addr n v : Nat) : Option State :=
  if 1 ≤ n ∧ addr + n ≤ Config.msgBytes ∧ v < 256 ^ n then some { s with buf := s.buf.writeBE addr n v } else none

/-! ### The message ports (20_memory.md R54) -/

/-- MSGINT, the whole buffer as one 384-bit integer (00_scope.md R13). -/
def State.msgInt (s : State) : Nat := s.buf.readBE 0 Config.msgBytes

/-- The `msg_out` port: always the current BUF, byte 0 in the top 8 bits. -/
def State.msgOut (s : State) : MsgWord := BitVec.ofNat 384 s.msgInt

/-- Wire bit `b`: bit `7 - (b mod 8)` of byte `b div 8` (00_scope.md R11, 20_memory.md R52). -/
def State.wireBit (s : State) (b : Nat) : Bool := (s.buf.read (b / 8)).getLsbD (7 - b % 8)

/-- Byte `i` of a message on `msg_in`: bits `383 - 8*i : 376 - 8*i` (R54). -/
def messageByte (m : MsgWord) (i : Nat) : Byte := m.extractLsb' (376 - 8 * i) 8

/-- The first `n` bytes of a message, as buffer contents. -/
def Memory.ofMessage (m : MsgWord) : Nat → Memory
  | 0 => []
  | n + 1 => (Memory.ofMessage m n).write n (messageByte m n)

/-! ### Responses (30_encoding.md R83, 60_exceptions.md R210) -/

/-- Status code 0, `OK`. -/
abbrev statusOk : BitVec 4 := 0

/-- Status code 6, `Halted`. -/
abbrev statusHalted : BitVec 4 := 6

/-- The 68-bit response word `{status, rdata}` (30_encoding.md R83). -/
def responseWord (r : Response) : RspWord := r.status ++ r.rdata

/-- Answer the command with `(status, rdata)`. -/
def respond (s : State) (status : BitVec 4) (rdata : Data) : Host.Outcome State Fault Refusal :=
  .next { s with rsp := some ⟨status, rdata⟩ }

/-- Answer `(OK, rdata)`. -/
def respondOk (s : State) (rdata : Data) : Host.Outcome State Fault Refusal := respond s statusOk rdata

/-! ### Faults and the halt -/

/-- `InvalidField`, code 1 (60_exceptions.md R211). -/
abbrev faultInvalidField : BitVec 4 := 1

/-- `ValueOutOfRange`, code 2 (R212). -/
abbrev faultValueOutOfRange : BitVec 4 := 2

/-- `InvalidByteIndex`, code 3 (R213). -/
abbrev faultInvalidByteIndex : BitVec 4 := 3

/-- `IllegalCommand`, code 4 (R215). -/
abbrev faultIllegalCommand : BitVec 4 := 4

/-- `ConvRange`, code 5 (R214). -/
abbrev faultConvRange : BitVec 4 := 5

/-- FAULT ENTRY (60_exceptions.md R222, R216): FAULT takes the code, the response is `(code, 0)`, and BUF, TAG and TAG_VALID are
as before. There is no handler, saved context or return; the way out is reset (R224). -/
def raise (code : BitVec 4) (s : State) : Host.Outcome State Fault Refusal :=
  respond { s with fault := code } code 0

/-- The halted gate (30_encoding.md R85 step 2, 60_exceptions.md R223): a halted block answers `(Halted, 0)` and changes nothing;
otherwise the command runs. -/
def unlessHalted (s : State) (running : Host.Outcome State Fault Refusal) : Host.Outcome State Fault Refusal :=
  if s.halted then respond s statusHalted 0 else running

/-- A word that decodes to no command (30_encoding.md R85 steps 2 and 3, 60_exceptions.md R215). -/
def illegalWord (s : State) : Host.Outcome State Fault Refusal :=
  unlessHalted s (raise faultIllegalCommand s)

/-! ### Between commands -/

/-- The host asserts `rst` (70_reset_and_hazards.md R240): the four registers are cleared. It produces no response word, so the
`rsp` port is left as it was (log 4). -/
def assertReset (s : State) : State :=
  { s with buf := [], tag := 0, tagValid := false, fault := 0 }

/-- The host presents a command: `msg_in` shows the message that goes with it (30_encoding.md R81, 20_memory.md R64; log 7). -/
def present (s : State) (msgIn : MsgWord) : State := { s with msgIn := msgIn }

/-- No move is presented: the block has no step of its own and keeps all its state (30_encoding.md R81, 60_exceptions.md R227;
log 3). -/
def idle (s : State) : Host.Outcome State Fault Refusal := .next s

/-- The state with one more move, which the host makes next. -/
def State.pushMove (s : State) (m : HostMove) : State := { s with inputs := m :: s.inputs }

end Sys2Proof.Machine
end

