-- ==== Sys2Proof/WellFormed.lean ====
section
/-! DEFINITION. Well-formedness of a Field Table (00_scope.md R10), check by check. A term of `Instr` needs no check: its
operands have exactly the widths of their fields, every such operand is encodable, and an index at or above its bound is a
fault of the command, not an illegal word (30_encoding.md R87). The assembler's operand-fit check, on unbounded integers, is
in Machine/Assembler.lean (R90). -/

namespace Sys2Proof

/-- Every length lies in `1..MAX_FIELD_BITS` (R10, D9). -/
def fieldLengthsOk (t : List MessageField) : Bool :=
  t.all fun f => decide (1 ≤ f.len) && decide (f.len ≤ Config.maxFieldBits)

/-- Each field ends at or before the next one's offset (R10: increasing, non-overlapping offsets). -/
def fieldOrderOk : List MessageField → Bool
  | [] => true
  | [_] => true
  | f :: g :: rest => decide (f.off + f.len ≤ g.off) && fieldOrderOk (g :: rest)

/-- The lengths, summed and rounded up to bytes, define the message size (R10). -/
def fieldSizeOk (t : List MessageField) : Bool :=
  decide (((t.map MessageField.len).sum + 7) / 8 = Config.msgBytes)

/-- Every field, the last one with them, ends inside the buffer (R10, D9). -/
def fieldEndsOk (t : List MessageField) : Bool :=
  t.all fun f => decide (f.off + f.len ≤ 8 * Config.msgBytes)

/-- The table has NFIELDS entries (R10). -/
def fieldCountOk (t : List MessageField) : Bool :=
  decide (t.length = Config.nFields)

/-- Well-formedness of a Field Table (00_scope.md R10). -/
def fieldTableWellFormed (t : List MessageField) : Bool :=
  fieldCountOk t && fieldLengthsOk t && fieldOrderOk t && fieldSizeOk t && fieldEndsOk t

end Sys2Proof
end

