-- ==== Sys2Proof/Machine/Operands.lean ====
section
/-! DEFINITION. The operand forms of the codec commands: the bit geometry of a field (40_codec_ops.md R110), a Field Table index
(30_encoding.md R87), a field of the buffer (R111, R112) and a byte of it (R113, R114). -/

namespace Sys2Proof.Machine

/-- The outputs of the bit-geometry function (40_codec_ops.md R110), with the names the rule gives them; `stop` is the rule's
exclusive `end`, and `trail` is also its `shift`. -/
structure BitGeom where
  start : Nat
  stop : Nat
  n : Nat
  lead : Nat
  trail : Nat
  startMask : Nat
  endMask : Nat
  deriving DecidableEq, Repr

/-- First byte touched, `o div 8` (R110). -/
def geomStart (o : Nat) : Nat := o / 8

/-- One past the last byte touched, `ceil((o + l) / 8)` (R110). -/
def geomStop (o l : Nat) : Nat := (o + l + 7) / 8

/-- Bytes touched (R110). -/
def geomBytes (o l : Nat) : Nat := geomStop o l - geomStart o

/-- High-order bits of the first byte that belong to a preceding field (R110). -/
def geomLead (o : Nat) : Nat := o % 8

/-- Low-order bits of the last byte that belong to a following field (R110). -/
def geomTrail (o l : Nat) : Nat := 8 * geomStop o l - (o + l)

/-- `bitgeom(o, l)` (40_codec_ops.md R110; the numeric masks are decision D18). -/
def bitgeom (o l : Nat) : BitGeom where
  start := geomStart o
  stop := geomStop o l
  n := geomBytes o l
  lead := geomLead o
  trail := geomTrail o l
  startMask := 0xFF >>> geomLead o
  endMask := (0xFF <<< geomTrail o l) &&& 0xFF

/-- The Field Table entry a selector names; none for an index of NFIELDS or more (10_state.md R26, 60_exceptions.md R211). -/
def fieldAt (sel : Sel) : Option MessageField := Config.fieldTable[sel.toNat]?

/-- The field value in the `8n`-bit big-endian integer `W` of the bytes it touches (40_codec_ops.md R111): drop `lead` high bits,
then shift out `trail` low bits. -/
def extractField (W n lead trail : Nat) : Nat := (W % 2 ^ (8 * n - lead)) / 2 ^ trail

/-- `W` with the field replaced by `v` (40_codec_ops.md R112): the `lead` high and `trail` low bits are kept. -/
def insertField (W n lead trail v : Nat) : Nat :=
  (W - W % 2 ^ (8 * n - lead)) + v * 2 ^ trail + W % 2 ^ trail

/-- Read the field at wire bit `o` of `l` bits (R111). -/
def fieldRead (s : State) (o l : Nat) : Option Nat :=
  match bufRead s (geomStart o) (geomBytes o l) with
  | none => none
  | some W => some (extractField W (geomBytes o l) (geomLead o) (geomTrail o l))

/-- Write `v` to the field at wire bit `o` of `l` bits, read-modify-write (R112). -/
def fieldWrite (s : State) (o l v : Nat) : Option State :=
  match bufRead s (geomStart o) (geomBytes o l) with
  | none => none
  | some W =>
    bufWrite s (geomStart o) (geomBytes o l) (insertField W (geomBytes o l) (geomLead o) (geomTrail o l) v)

/-- Read byte `i` (R113). -/
def byteRead (s : State) (i : Nat) : Option Nat := bufRead s i 1

/-- Write byte `i` (R114). -/
def byteWrite (s : State) (i v : Nat) : Option State := bufWrite s i 1 v

end Sys2Proof.Machine
end

