-- ==== Sys2Proof/Machine/Codec.lean ====
section
/-! DEFINITION. The codec commands GETF, SETF, GETB, SETB, MCLR, MLOAD, TAGSET, TAGGET (40_codec_ops.md R111 to R118). Each passes
the halted gate first (30_encoding.md R85); index checks precede value checks (60_exceptions.md R221); every check precedes every
write (R222). -/

namespace Sys2Proof.Machine

/-- GETF (R111). -/
def execGetf (sel : Sel) (s : State) : Host.Outcome State Fault Refusal :=
  unlessHalted s <|
    match fieldAt sel with
    | none => raise faultInvalidField s
    | some f =>
      match fieldRead s f.off f.len with
      | none => .fault (.outsideBuffer (geomStart f.off) (geomBytes f.off f.len))
      | some v => respondOk s (BitVec.ofNat 64 v)

/-- SETF (R112). -/
def execSetf (sel : Sel) (wdata : Data) (s : State) : Host.Outcome State Fault Refusal :=
  unlessHalted s <|
    match fieldAt sel with
    | none => raise faultInvalidField s
    | some f =>
      if 2 ^ f.len ≤ wdata.toNat then raise faultValueOutOfRange s
      else
        match fieldWrite s f.off f.len wdata.toNat with
        | none => .fault (.outsideBuffer (geomStart f.off) (geomBytes f.off f.len))
        | some t => respondOk t 0

/-- GETB (R113). -/
def execGetb (sel : Sel) (s : State) : Host.Outcome State Fault Refusal :=
  unlessHalted s <|
    if Config.msgBytes ≤ sel.toNat then raise faultInvalidByteIndex s
    else
      match byteRead s sel.toNat with
      | none => .fault (.outsideBuffer sel.toNat 1)
      | some v => respondOk s (BitVec.ofNat 64 v)

/-- SETB (R114). -/
def execSetb (sel : Sel) (wdata : Data) (s : State) : Host.Outcome State Fault Refusal :=
  unlessHalted s <|
    if Config.msgBytes ≤ sel.toNat then raise faultInvalidByteIndex s
    else if 256 ≤ wdata.toNat then raise faultValueOutOfRange s
    else
      match byteWrite s sel.toNat wdata.toNat with
      | none => .fault (.outsideBuffer sel.toNat 1)
      | some t => respondOk t 0

/-- MCLR (R115). -/
def execMclr (s : State) : Host.Outcome State Fault Refusal :=
  unlessHalted s (respondOk { s.dropTag with buf := [] } 0)

/-- MLOAD (R116). -/
def execMload (tag : Data) (s : State) : Host.Outcome State Fault Refusal :=
  unlessHalted s (respondOk { s.attachTag tag with buf := Memory.ofMessage s.msgIn Config.msgBytes } 0)

/-- TAGSET (R117). -/
def execTagset (tag : Data) (s : State) : Host.Outcome State Fault Refusal :=
  unlessHalted s (respondOk (s.attachTag tag) 0)

/-- TAGGET (R118): an absent tag reads as 0, since TAG is 0 while TAG_VALID is 0 (10_state.md R22). -/
def execTagget (s : State) : Host.Outcome State Fault Refusal :=
  unlessHalted s (respondOk s s.tag)

end Sys2Proof.Machine
end

