-- ==== Sys2Proof/Machine/System.lean ====
section
/-! DEFINITION. The system command RDSTAT (43_system_ops.md R200), the only command a halted block performs. -/

namespace Sys2Proof.Machine

/-- RDSTAT (R200): no halted gate. -/
def execRdstat (s : State) : Host.Outcome State Fault Refusal := respondOk s s.stat

end Sys2Proof.Machine
end

