-- ==== Sys2Proof/Machine/Numeric.lean ====
section
/-! DEFINITION. The numeric primitives of the Timestamp Converter (41_timestamp_ops.md R144 to R146), on exact rationals written
as a numerator and a positive denominator. No floating-point arithmetic is used. -/

namespace Sys2Proof.Machine

/-- `n` or `-n`. -/
def signed (negative : Bool) (n : Nat) : Int := if negative then -(n : Int) else n

/-- `f64val(b)` (R144): the value of a binary64 pattern as (numerator, denominator), none for an infinity or a NaN. Log 10. -/
def f64val (b : Data) : Option (Int × Nat) :=
  let neg := b.getLsbD 63
  let e := (b.extractLsb' 52 11).toNat
  let f := (b.extractLsb' 0 52).toNat
  if e = 2047 then none
  else if e = 0 then some (signed neg f, 2 ^ 1074)
  else some (signed neg ((2 ^ 52 + f) * 2 ^ (e - 1075)), 2 ^ (1075 - e))

/-- `rhe(num / den)` (R145): the nearest integer, ties to the even one. -/
def rhe (num : Int) (den : Nat) : Int :=
  let fl := num / den
  let r := num % den
  if (den : Int) < 2 * r ∨ (2 * r = den ∧ fl % 2 = 1) then fl + 1 else fl

/-- `2^g ≤ a / den`. -/
def powAtMost (g : Int) (a den : Nat) : Bool :=
  decide (2 ^ g.toNat * den ≤ a * 2 ^ (-g).toNat)

/-- The integer `e` with `2^e ≤ a / den < 2^(e+1)`, for positive `a` and `den` (R146). -/
def floorLog2 (a den : Nat) : Int :=
  let g : Int := (a.log2 : Int) - (den.log2 : Int)
  if powAtMost g a den then g else g - 1

/-- `rhe((a / den) / 2^(e-52))`, the significand before renormalising (R146). -/
def significand (a den : Nat) (e : Int) : Int :=
  rhe (a * 2 ^ (52 - e).toNat) (den * 2 ^ (e - 52).toNat)

/-- The pattern with sign, exponent `e` and significand `m` in `2^52 .. 2^53-1` (R146). -/
def packF64 (negative : Bool) (e m : Int) : Data :=
  BitVec.ofBool negative ++ BitVec.ofInt 11 (e + 1023) ++ BitVec.ofInt 52 (m - 2 ^ 52)

/-- `rne64(num / den)` (R146): the nearest binary64 pattern, ties to the even significand; +0 for 0. None where the rule leaves
it undefined: a non-zero value outside `2^-1022 ≤ |q| < 2^1024 - 2^970`. Log 10. -/
def rne64 (num : Int) (den : Nat) : Option Data :=
  if num = 0 then some 0
  else
    let a := num.natAbs
    let e := floorLog2 a den
    if e < -1022 ∨ (2 ^ 1024 - 2 ^ 970) * den ≤ a then none
    else
      let m := significand a den e
      if m = 2 ^ 53 then some (packF64 (decide (num < 0)) (e + 1) (2 ^ 52))
      else some (packF64 (decide (num < 0)) e m)

end Sys2Proof.Machine
end

