-- ==== Sys2Proof/Machine/Timestamp.lean ====
section
/-! DEFINITION. The converter commands P2N and N2P (41_timestamp_ops.md R147, R148): pure functions of `wdata` and the constant
K (10_state.md R28). -/

namespace Sys2Proof.Machine

/-- The POSIX time `num / den` in 32.32 fixed point (R147): whole seconds by `floor`, the fraction rounded, a fraction of `2^32`
carried into the whole seconds (decision D22). -/
def posixFixed (num : Int) (den : Nat) : Int :=
  let w := num / den
  let lo := rhe (num % den * 2 ^ 32) den
  w * 2 ^ 32 + lo

/-- `posix_to_ntp` (R147); none where the command raises ConvRange. -/
def posixToNtp (wdata : Data) : Option Data :=
  match f64val wdata with
  | none => none
  | some (num, den) =>
    let t := posixFixed num den + Config.epochK
    if t < 0 ∨ 2 ^ 64 ≤ t then none else some (BitVec.ofInt 64 t)

/-- `ntp_to_posix` (R148): the exact signed difference, then one rounding of `whole + frac / 2^32`. -/
def ntpToPosix (t : Data) : Option Data :=
  let s : Int := (t.toNat : Int) - Config.epochK
  let whole := s / 2 ^ 32
  let frac := s % 2 ^ 32
  rne64 (whole * 2 ^ 32 + frac) (2 ^ 32)

/-- P2N (R147). -/
def execP2n (wdata : Data) (s : State) : Host.Outcome State Fault Refusal :=
  unlessHalted s <|
    match posixToNtp wdata with
    | none => raise faultConvRange s
    | some t => respondOk s t

/-- N2P (R148). The refusal stands for the values on which `rne64` is undefined (R146); no `wdata` reaches it. -/
def execN2p (wdata : Data) (s : State) : Host.Outcome State Fault Refusal :=
  unlessHalted s <|
    match ntpToPosix wdata with
    | none => .refused .rne64Undefined
    | some x => respondOk s x

end Sys2Proof.Machine
end

