-- ==== Sys2Proof/Machine/Dispatch.lean ====
section
/-! DEFINITION. What each command does, one arm per constructor of `Instr`. -/

namespace Sys2Proof.Machine

/-- Perform a decoded command (30_encoding.md R85 steps 2 and 4). -/
def exec (i : Instr) (s : State) : Host.Outcome State Fault Refusal :=
  match i with
  | .getf sel => Sys2Proof.Machine.execGetf sel s
  | .setf sel wdata => Sys2Proof.Machine.execSetf sel wdata s
  | .getb sel => Sys2Proof.Machine.execGetb sel s
  | .setb sel wdata => Sys2Proof.Machine.execSetb sel wdata s
  | .mclr => Sys2Proof.Machine.execMclr s
  | .mload tag => Sys2Proof.Machine.execMload tag s
  | .tagset tag => Sys2Proof.Machine.execTagset tag s
  | .tagget => Sys2Proof.Machine.execTagget s
  | .p2n wdata => Sys2Proof.Machine.execP2n wdata s
  | .n2p wdata => Sys2Proof.Machine.execN2p wdata s
  | .rdstat => Sys2Proof.Machine.execRdstat s

end Sys2Proof.Machine
end

