-- ==== Sys2Proof/Machine/Step.lean ====
section
/-! DEFINITION. One step of the block: the host's next move is taken and answered (30_encoding.md R81, R85). -/

namespace Sys2Proof.Machine

/-- One step (R81, R85): take the host's next move. A word is decoded and its command performed, or it is illegal; `rst` resets;
with no move presented nothing happens. -/
def step (s : State) : Host.Outcome State Fault Refusal :=
  match s.inputs with
  | [] => idle s
  | .reset :: rest => .next (assertReset { s with inputs := rest })
  | .command w msgIn :: rest =>
    match decode w with
    | .ok i => exec i (present { s with inputs := rest } msgIn)
    | .error _ => illegalWord (present { s with inputs := rest } msgIn)

/-- The state in which the host's next move is to present the word `w` (of `nbits` bits, numbered as opcode_table.json numbers
them), with `msg_in` as it stands. Commands come from the host (10_state.md R25), so this stands for the host presenting the
word (log 2). -/
def State.withFetchWord (s : State) (nbits w : Nat) : State :=
  s.pushMove (.command (BitVec.ofNat 80 (w % 2 ^ nbits)) s.msgIn)

end Sys2Proof.Machine
end

