-- ==== Sys2Proof/Machine/Blocks.lean ====
section
/-! DEFINITION. Several blocks in one system (20_memory.md R66): each has its own state; one of them takes its next step. -/

namespace Sys2Proof.Machine

/-- Block `k` takes one step; where there is no block `k` nothing happens. -/
def stepBlock (bs : List State) (k : Nat) : Host.Outcome (List State) Fault Refusal :=
  match bs[k]? with
  | none => .next bs
  | some s =>
    match step s with
    | .next t => .next (bs.set k t)
    | .fault r => .fault r
    | .refused r => .refused r

end Sys2Proof.Machine
end

