-- ==== Sys2Proof/Machine/HostArith.lean ====
section
/-! DEFINITION. The host's arithmetic on timestamps and binary64 patterns (42_host_sequences.md notation, R180 to R182): exact
integers, then one rounding each. None where `rne64` is undefined or an operand is not finite (log 14). -/

namespace Sys2Proof.Machine

/-- `fx2s(s) = rne64(s / 2^32)`: a signed 32.32 fixed-point integer to binary64 seconds. -/
def fx2s (s : Int) : Option Data := rne64 s (2 ^ 32)

/-- `fhalf(a) = rne64(f64val(a) / 2)`. -/
def fhalf (a : Data) : Option Data :=
  match f64val a with
  | none => none
  | some (n, d) => rne64 n (2 * d)

/-- `fadd(a, b) = rne64(f64val(a) + f64val(b))`. -/
def fadd (a b : Data) : Option Data :=
  match f64val a, f64val b with
  | some (n, d), some (m, e) => rne64 (n * e + m * d) (d * e)
  | _, _ => none

/-- `d_fx` (R180), an exact signed integer in units of 2^-32 s (R181). -/
def delayFx (t1 t2 t3 t4 : Data) : Int :=
  ((t4.toNat : Int) - t1.toNat) - ((t3.toNat : Int) - t2.toNat)

/-- `theta_fx` (R180). -/
def offsetFx (t1 t2 t3 t4 : Data) : Int :=
  ((t2.toNat : Int) - t1.toNat) + ((t3.toNat : Int) - t4.toNat)

/-- The round-trip delay `d` (R180). -/
def delaySeconds (t1 t2 t3 t4 : Data) : Option Data := fx2s (delayFx t1 t2 t3 t4)

/-- The clock offset `theta` (R180): converted once, then halved. -/
def offsetSeconds (t1 t2 t3 t4 : Data) : Option Data :=
  match fx2s (offsetFx t1 t2 t3 t4) with
  | none => none
  | some x => fhalf x

/-- The corrected time from the `rdata` of `N2P T4` and `theta` (R182). -/
def correctedTime (n2pT4 theta : Data) : Option Data := fadd n2pT4 theta

end Sys2Proof.Machine
end

