-- ==== Sys2Proof/Machine/Assembler.lean ====
section
/-! DEFINITION. The assembler notation of a command (30_encoding.md R90 to R92): one line, one command; field names are constants;
an operand that does not fit its field of the word does not assemble. Text is read as its list of characters (log 16). -/

namespace Sys2Proof.Machine

/-! ### Field names as constants (30_encoding.md R91) -/

def selLI : Sel := 0
def selVN : Sel := 1
def selMode : Sel := 2
def selStratum : Sel := 3
def selPoll : Sel := 4
def selPrecision : Sel := 5
def selRootDelay : Sel := 6
def selRootDispersion : Sel := 7
def selReferenceIdentifier : Sel := 8
def selReferenceTimestamp : Sel := 9
def selOriginateTimestamp : Sel := 10
def selReceiveTimestamp : Sel := 11
def selTransmitTimestamp : Sel := 12

/-- The index of the field called `name`; none for any other name (R91: case-sensitive). -/
def fieldIndex (name : String) : Option Nat := Config.fieldTable.findIdx? fun f => f.name == name

/-! ### A line with its operands as unsigned integers -/

/-- A command line whose operands have been read but not yet checked against their fields (R90). -/
inductive AsmLine where
  | getf (field : Nat)
  | setf (field value : Nat)
  | getb (index : Nat)
  | setb (index value : Nat)
  | mclr
  | mload (tag : Nat) (message : MsgWord)
  | tagset (tag : Nat)
  | tagget
  | p2n (bits : Nat)
  | n2p (timestamp : Nat)
  | rdstat
  deriving DecidableEq, Repr

/-- An operand for `sel`: it must fit 8 bits (R90). -/
def selOperand (n : Nat) : Option Sel := if n < 2 ^ 8 then some (BitVec.ofNat 8 n) else none

/-- An operand for `wdata`: it must fit 64 bits (R90). -/
def dataOperand (n : Nat) : Option Data := if n < 2 ^ 64 then some (BitVec.ofNat 64 n) else none

/-- A command of a field or byte with a data operand; both must fit. -/
def assembleBoth (c : Sel → Data → Instr) (sel value : Nat) : Option Instr :=
  match selOperand sel, dataOperand value with
  | some k, some v => some (c k v)
  | _, _ => none

/-- The command of a line, none when an operand does not fit its field: the line does not assemble (R90). -/
def AsmLine.command : AsmLine → Option Instr
  | .getf field => (selOperand field).map .getf
  | .setf field value => assembleBoth .setf field value
  | .getb index => (selOperand index).map .getb
  | .setb index value => assembleBoth .setb index value
  | .mclr => some .mclr
  | .mload tag _ => (dataOperand tag).map .mload
  | .tagset tag => (dataOperand tag).map .tagset
  | .tagget => some .tagget
  | .p2n bits => (dataOperand bits).map .p2n
  | .n2p timestamp => (dataOperand timestamp).map .n2p
  | .rdstat => some .rdstat

/-- What `msg_in` shows with the line: the bracket of MLOAD, byte 0 first, and 0 otherwise (R90; DESIGN CHOICE,
log 16: the block ignores it then, 20_memory.md R64). -/
def AsmLine.message : AsmLine → MsgWord
  | .mload _ m => m
  | _ => 0

/-- The host move of a line: the word `{op, 0, sel, wdata}` with its message (R90). -/
def AsmLine.move (a : AsmLine) : Option HostMove :=
  a.command.map fun i => .command (encode i) a.message

/-! ### Reading a line of text -/

def isBlank (c : Char) : Bool := c == ' ' || c == '\t'

/-- Without blanks at either end. -/
def trimBlanks (l : List Char) : List Char :=
  ((l.dropWhile isBlank).reverse.dropWhile isBlank).reverse

/-- The parts between commas. -/
def splitCommas : List Char → List (List Char)
  | [] => [[]]
  | c :: cs =>
    if c == ',' then [] :: splitCommas cs
    else
      match splitCommas cs with
      | [] => [[c]]
      | t :: ts => (c :: t) :: ts

/-- A digit of base 10. -/
def decDigit (c : Char) : Option Nat :=
  if '0' ≤ c ∧ c ≤ '9' then some (c.toNat - '0'.toNat) else none

/-- A digit of base 16. -/
def hexDigit (c : Char) : Option Nat :=
  if 'A' ≤ c ∧ c ≤ 'F' then some (c.toNat - 'A'.toNat + 10)
  else if 'a' ≤ c ∧ c ≤ 'f' then some (c.toNat - 'a'.toNat + 10)
  else decDigit c

/-- The value of a run of digits after `acc`. -/
def digitsValue (base : Nat) (digit : Char → Option Nat) : Nat → List Char → Option Nat
  | acc, [] => some acc
  | acc, c :: cs =>
    match digit c with
    | none => none
    | some d => digitsValue base digit (acc * base + d) cs

/-- A run of at least one decimal digit. -/
def decimalDigits (l : List Char) : Option Nat :=
  if l = [] then none else digitsValue 10 decDigit 0 l

/-- A run of at least one hexadecimal digit. -/
def hexDigits (l : List Char) : Option Nat :=
  if l = [] then none else digitsValue 16 hexDigit 0 l

/-- An unsigned integer, decimal or `0x` hexadecimal (R90). -/
def readNumber : List Char → Option Nat
  | '0' :: 'x' :: rest => hexDigits rest
  | l => decimalDigits l

/-- A Field Table index, as a number or by name (R90, R91). -/
def readField (l : List Char) : Option Nat :=
  match readNumber l with
  | some n => some n
  | none => fieldIndex (String.ofList l)

/-- `[<96 hex digits>]`: a message, byte 0 first (R90). -/
def readMessage : List Char → Option MsgWord
  | '[' :: rest =>
    if rest.length = 97 ∧ rest.getLast? = some ']' then (hexDigits rest.dropLast).map (BitVec.ofNat 384) else none
  | _ => none

/-- A decimal without sign, as (numerator, denominator). -/
def readDecimal (l : List Char) : Option (Nat × Nat) :=
  let whole := l.takeWhile (· != '.')
  match l.dropWhile (· != '.') with
  | [] => (decimalDigits whole).map fun n => (n, 1)
  | _ :: frac =>
    match decimalDigits whole, decimalDigits frac with
    | some _, some _ => (decimalDigits (whole ++ frac)).map fun n => (n, 10 ^ frac.length)
    | _, _ => none

/-- The binary64 nearest a decimal with an optional minus sign (R90 `f64`), by `rne64`. DESIGN CHOICE (log 16): a decimal of value 0,
signed or not, gives +0; for a non-zero decimal outside the range of `rne64` (R146) the line does not assemble. -/
def readF64 (l : List Char) : Option Nat :=
  match l with
  | '-' :: rest =>
    match readDecimal rest with
    | some (n, d) => (rne64 (-(n : Int)) d).map BitVec.toNat
    | none => none
  | _ =>
    match readDecimal l with
    | some (n, d) => (rne64 n d).map BitVec.toNat
    | none => none

/-- The operand of P2N: a bit pattern, or `f64(<decimal>)` (R90). DESIGN CHOICE (log 16): R90 does not say how `<binary64 bits>` is
written; it is read as the other number operands are, decimal or `0x` hexadecimal, and must fit `wdata`. -/
def readPosix : List Char → Option Nat
  | 'f' :: '6' :: '4' :: '(' :: rest => if rest.getLast? = some ')' then readF64 (trimBlanks rest.dropLast) else none
  | l => readNumber l

/-- A line of one number operand. -/
def readOne (mk : Nat → AsmLine) (read : List Char → Option Nat) : List (List Char) → Option AsmLine
  | [a] => (read a).map mk
  | _ => none

/-- A line of two number operands. -/
def readTwo (mk : Nat → Nat → AsmLine) (read : List Char → Option Nat) : List (List Char) → Option AsmLine
  | [a, b] =>
    match read a, readNumber b with
    | some x, some y => some (mk x y)
    | _, _ => none
  | _ => none

/-- A line of no operand. -/
def readNone (line : AsmLine) : List (List Char) → Option AsmLine
  | [] => some line
  | _ => none

/-- MLOAD's operands: the tag and the message. -/
def readMload : List (List Char) → Option AsmLine
  | [a, b] =>
    match readNumber a, readMessage b with
    | some t, some m => some (.mload t m)
    | _, _ => none
  | _ => none

/-- A command line by its mnemonic (R90: case-sensitive; R92: no pseudo-instructions). -/
def readCommand (name : String) (ops : List (List Char)) : Option AsmLine :=
  if name = "GETF" then readOne .getf readField ops
  else if name = "SETF" then readTwo .setf readField ops
  else if name = "GETB" then readOne .getb readNumber ops
  else if name = "SETB" then readTwo .setb readNumber ops
  else if name = "MCLR" then readNone .mclr ops
  else if name = "MLOAD" then readMload ops
  else if name = "TAGSET" then readOne .tagset readNumber ops
  else if name = "TAGGET" then readNone .tagget ops
  else if name = "P2N" then readOne .p2n readPosix ops
  else if name = "N2P" then readOne .n2p readNumber ops
  else if name = "RDSTAT" then readNone .rdstat ops
  else none

/-- A line of text: mnemonic, operands between commas, and a comment from `;` on (R90). None: it does not assemble. -/
def readLine (text : String) : Option AsmLine :=
  let l := trimBlanks (text.toList.takeWhile (· != ';'))
  let name := l.takeWhile fun c => !isBlank c
  let rest := trimBlanks (l.dropWhile fun c => !isBlank c)
  readCommand (String.ofList name) (if rest = [] then [] else (splitCommas rest).map trimBlanks)

/-- The host move a line of text assembles to (R90). -/
def assemble (text : String) : Option HostMove :=
  match readLine text with
  | none => none
  | some a => a.move

end Sys2Proof.Machine
end

