-- ==== Sys2Proof/Machine/HostPort.lean ====
section
/-! DEFINITION. The host's side of the command port (30_encoding.md R81, 42_host_sequences.md R188): present a word, take its
response, and treat any status but OK as a failed exchange. -/

namespace Sys2Proof.Machine

/-- One transaction: present `w`, with `msg_in` showing `msgIn`, and read the response. None only if the model stopped. -/
def transact (s : State) (w : CmdWord) (msgIn : MsgWord) : Option (State × Response) :=
  match step (s.pushMove (.command w msgIn)) with
  | .next t =>
    match t.rsp with
    | some r => some (t, r)
    | none => none
  | .fault _ => none
  | .refused _ => none

/-- A command the host needs to succeed: its `rdata`, or none for a status other than OK ("fatal", R188). -/
def call (s : State) (i : Instr) (msgIn : MsgWord) : Option (State × Data) :=
  match transact s (encode i) msgIn with
  | some (t, r) => if r.status = statusOk then some (t, r.rdata) else none
  | none => none

/-- Commands in order, each of which must succeed. -/
def callAll (s : State) : List Instr → Option State
  | [] => some s
  | i :: rest =>
    match call s i 0 with
    | some (t, _) => callAll t rest
    | none => none

end Sys2Proof.Machine
end

