-- ==== Sys2Proof/Machine/Client.lean ====
section
/-! DEFINITION. The Client Synchronizer (42_host_sequences.md R172 to R183): host software that drives one block. What the
transport and the clock give it are arguments (R171); its own values live in its phase, not in the block (10_state.md R24). -/

namespace Sys2Proof.Machine

/-- Why a response is rejected (R175); host outcomes, never block faults (60_exceptions.md R228). -/
inductive RejectReason where
  | replayMismatch
  | nonCompliant
  deriving DecidableEq, Repr

/-- What an accepted exchange yields (R180, R182): binary64 patterns. `delay` is reported only. -/
structure SyncResult where
  delay : Data
  offset : Data
  corrected : Data
  deriving DecidableEq, Repr

/-- What the transport reports once a request has been handed to it (R171, R174). A datagram of any other length than 48 bytes is
left to the transport and never reaches the client. -/
inductive TransportReport where
  /-- Exactly 48 bytes, and their source address packed as a tag. -/
  | received (response : MsgWord) (source : Data)
  /-- `TransportError`: a socket-level failure of `send` or `receive`. -/
  | socketFailure
  /-- No response arrived. -/
  | timeout
  deriving DecidableEq, Repr

/-- The client's state machine (R172), and the two ways an exchange ends without a response: a TransportError (R187), and the distinct
failure by which a timeout surfaces (R174; the spec names no kind for it, and the name `timedOut` is the model's: log 14). -/
inductive ClientPhase where
  | idle
  | requestSent (t1 : Data)
  | responseReceived (t1 t4 : Data)
  | accepted (result : SyncResult)
  | rejected (reason : RejectReason)
  | transportError
  | timedOut
  deriving DecidableEq, Repr

/-- The commands that build a request once T1 is known (R173). -/
def requestCommands (t1 : Data) : List Instr :=
  [.mclr, .setf selLI 3, .setf selVN 4, .setf selMode 3, .setf selStratum 15, .setf selOriginateTimestamp t1,
   .setf selTransmitTimestamp t1]

/-- Idle to RequestSent (R173): the block, the phase with T1 recorded, and the 48 bytes handed to the transport. None when a
command did not answer OK. -/
def clientSend (s : State) (now : Data) : Option (State × ClientPhase × MsgWord) :=
  match call s (.p2n now) 0 with
  | none => none
  | some (s1, t1) =>
    match callAll s1 (requestCommands t1) with
    | none => none
    | some s2 => some (s2, .requestSent t1, s2.msgOut)

/-- RequestSent to ResponseReceived (R174, R176): T4 is taken first, then the response is loaded with its source as the tag. -/
def clientReceive (s : State) (t1 : Data) (now : Data) (response : MsgWord) (source : Data) : Option (State × ClientPhase) :=
  match call s (.p2n now) 0 with
  | none => none
  | some (s1, t4) =>
    match call s1 (.mload source) response with
    | none => none
    | some (s2, _) => some (s2, .responseReceived t1 t4)

/-- Validation of a response (R175): none when accepted; ReplayMismatch is tested first (decision D24). -/
def validate (t1 originate stratum transmit mode : Data) : Option RejectReason :=
  if originate ≠ t1 then some .replayMismatch
  else if stratum = 0 ∨ transmit = 0 ∨ (mode ≠ 4 ∧ mode ≠ 5) then some .nonCompliant
  else none

/-- The computation on Accepted (R180, R182), given `rdata` of `N2P T4`. -/
def syncResult (t1 t2 t3 t4 n2pT4 : Data) : Option SyncResult :=
  match delaySeconds t1 t2 t3 t4, offsetSeconds t1 t2 t3 t4 with
  | some d, some theta => (correctedTime n2pT4 theta).map fun c => ⟨d, theta, c⟩
  | _, _ => none

/-- Accepted (R176): read T2 and convert T4. -/
def clientAccept (s : State) (t1 t3 t4 : Data) : Option (State × ClientPhase) :=
  match call s (.getf selReceiveTimestamp) 0 with
  | none => none
  | some (s1, t2) =>
    match call s1 (.n2p t4) 0 with
    | none => none
    | some (s2, x) => (syncResult t1 t2 t3 t4 x).map fun r => (s2, .accepted r)

/-- ResponseReceived to Accepted or Rejected (R175, R176, R183). -/
def clientFinish (s : State) (t1 t4 : Data) : Option (State × ClientPhase) :=
  match call s (.getf selOriginateTimestamp) 0 with
  | none => none
  | some (s1, o) =>
    match call s1 (.getf selStratum) 0 with
    | none => none
    | some (s2, st) =>
      match call s2 (.getf selTransmitTimestamp) 0 with
      | none => none
      | some (s3, x) =>
        match call s3 (.getf selMode) 0 with
        | none => none
        | some (s4, m) =>
          match validate t1 o st x m with
          | some reason => some (s4, .rejected reason)
          | none => clientAccept s4 t1 x t4

/-- One whole exchange (R172): send, then what the transport reports; a response is loaded, validated and computed with. A
socket-level failure or a timeout ends the exchange with no further command, each in its own phase, and the block keeps the Message
it held (R174, R187). An exchange is never retried (R186). -/
def clientExchange (s : State) (sendTime : Data) (report : TransportReport) (receiveTime : Data) :
    Option (State × ClientPhase) :=
  match clientSend s sendTime with
  | some (s1, .requestSent t1, _) =>
    match report with
    | .received response source =>
      match clientReceive s1 t1 receiveTime response source with
      | some (s2, .responseReceived _ t4) => clientFinish s2 t1 t4
      | _ => none
    | .socketFailure => some (s1, .transportError)
    | .timeout => some (s1, .timedOut)
  | _ => none

end Sys2Proof.Machine
end

