-- ==== Sys2Proof/Machine/NumericSpec.lean ====
section
/-! DEFINITION. The numeric primitives of 41_timestamp_ops.md R144 to R146 said on the rationals, as the rules say them. Claims
are made in these terms; the machine computes with the functions of Machine/Numeric.lean. -/

namespace Sys2Proof.Machine

/-- `f64val(b)` (R144) as a rational; none for an infinity or a NaN. -/
def f64valQ (b : Data) : Option ℚ :=
  let sg := (b.extractLsb' 63 1).toNat
  let e := (b.extractLsb' 52 11).toNat
  let f := (b.extractLsb' 0 52).toNat
  if e = 2047 then none
  else if e = 0 then some ((-1) ^ sg * f * (2 : ℚ) ^ (-1074 : ℤ))
  else some ((-1) ^ sg * (2 ^ 52 + f) * (2 : ℚ) ^ ((e : ℤ) - 1075))

/-- `rhe(q)` (R145): with `fl = floor(q)` and `r = q - fl`. -/
def rheQ (q : ℚ) : ℤ :=
  if q - ⌊q⌋ > 1 / 2 ∨ (q - ⌊q⌋ = 1 / 2 ∧ ⌊q⌋ % 2 = 1) then ⌊q⌋ + 1 else ⌊q⌋

/-- `x = rne64(q)` (R146), for a `q` of its range: +0 for 0, else the pattern `{sg, e + 1023, m - 2^52}` of the `e` with
`2^e ≤ |q| < 2^(e+1)` and `m = rhe(|q| / 2^(e-52))`, renormalised when `m = 2^53`. -/
def IsRne64 (q : ℚ) (x : Data) : Prop :=
  (q = 0 ∧ x = 0) ∨
  (q ≠ 0 ∧ ∃ e m : ℤ, (2 : ℚ) ^ e ≤ |q| ∧ |q| < (2 : ℚ) ^ (e + 1) ∧ m = rheQ (|q| / (2 : ℚ) ^ (e - 52)) ∧
    x = if m = 2 ^ 53 then
          BitVec.ofBool (decide (q < 0)) ++ BitVec.ofInt 11 (e + 1 + 1023) ++ (0 : BitVec 52)
        else BitVec.ofBool (decide (q < 0)) ++ BitVec.ofInt 11 (e + 1023) ++ BitVec.ofInt 52 (m - 2 ^ 52))

end Sys2Proof.Machine
end

