-- ==== Sys2Proof/Machine/Server.lean ====
section
/-! DEFINITION. The Server Responder (42_host_sequences.md R184, R185): host software that turns one request into one response on
one block. Its identity and its clock readings are arguments (R171). -/

namespace Sys2Proof.Machine

/-- Server identity input (R171, R184). `reference` is the NtpTimestamp64 of the last synchronisation; `li` is 0 or the server's
own synchronization state. -/
structure ServerConfig where
  li : Data
  stratum : Data
  refId : Data
  reference : Data
  deriving DecidableEq, Repr

/-- The commands that build the response up to its transmit time (R184). -/
def responseCommands (c : ServerConfig) (treq trx : Data) : List Instr :=
  [.mclr, .setf selLI c.li, .setf selVN 4, .setf selMode 4, .setf selStratum c.stratum, .setf selReferenceIdentifier c.refId,
   .setf selReferenceTimestamp c.reference, .setf selOriginateTimestamp treq, .setf selReceiveTimestamp trx]

/-- The transmit time, written as late as possible (R184). -/
def serverFinish (s : State) (dest sendTime : Data) : Option (State × MsgWord × Data) :=
  match call s (.p2n sendTime) 0 with
  | none => none
  | some (s1, ttx) =>
    match call s1 (.setf selTransmitTimestamp ttx) 0 with
    | none => none
    | some (s2, _) => some (s2, s2.msgOut, dest)

/-- One response (R184): the block, the 48 bytes to send and the tag of where to send them, read before MCLR drops it. No
request is rejected (R185). None when a command did not answer OK. -/
def serverRespond (s : State) (c : ServerConfig) (request : MsgWord) (source receiveTime sendTime : Data) :
    Option (State × MsgWord × Data) :=
  match call s (.mload source) request with
  | none => none
  | some (s1, _) =>
    match call s1 (.getf selTransmitTimestamp) 0 with
    | none => none
    | some (s2, treq) =>
      match call s2 (.p2n receiveTime) 0 with
      | none => none
      | some (s3, trx) =>
        match call s3 .tagget 0 with
        | none => none
        | some (s4, dest) =>
          match callAll s4 (responseCommands c treq trx) with
          | none => none
          | some s5 => serverFinish s5 dest sendTime

end Sys2Proof.Machine
end

