-- ==== Sys2Proof/Safety.lean ====
section
/-! DEFINITION. The terms claims are made in: the invariant of the block, and what a run that ended well is
(70_reset_and_hazards.md R251). -/

namespace Sys2Proof

open Sys2Proof.Machine

/-- The response on the `rsp` port is legal: its status is 0 to 6, and `rdata` is 0 for every status but OK (30_encoding.md R83,
60_exceptions.md R210). -/
abbrev Machine.Response.Legal (r : Response) : Prop :=
  r.status ≤ 6 ∧ (r.status ≠ statusOk → r.rdata = 0)

/-- The invariant of the block: BUF in its canonical form; FAULT 0 to 5 (10_state.md R23); no tag, then TAG is 0 (R22); a legal
response, if there has been one. -/
abbrev Machine.State.Inv (s : State) : Prop :=
  s.buf.wf ∧ s.fault ≤ 5 ∧ (s.tagValid = false → s.tag = 0) ∧ ∀ r, s.rsp = some r → r.Legal

/-- The move may write the tag: `rst`, or a word that decodes to MCLR, MLOAD or TAGSET (10_state.md R21). -/
def writesTag : HostMove → Bool
  | .reset => true
  | .command w _ =>
    match decode w with
    | .ok .mclr => true
    | .ok (.mload _) => true
    | .ok (.tagset _) => true
    | .ok _ => false
    | .error _ => false

/-- The move in hand was answered well: a command with status OK; a reset gives no response. -/
def answeredWell (m : HostMove) (t : State) : Bool :=
  match m, t.rsp with
  | .command _ _, some r => r.status == statusOk
  | .command _ _, none => false
  | .reset, _ => true

/-- Perform the presented moves in order; true when every one was answered well and FAULT is 0 at the end. -/
def endedWellAfter : Nat → State → Bool
  | 0, s => s.fault == 0
  | k + 1, s =>
    match s.inputs, step s with
    | m :: _, .next t => answeredWell m t && endedWellAfter k t
    | [], .next _ => s.fault == 0
    | _, .fault _ => false
    | _, .refused _ => false

/-- R251: the run of all presented moves ended well. -/
def endedWell (s : State) : Bool := endedWellAfter s.inputs.length s

end Sys2Proof
end

