-- ==== Sys2Proof/Certificates/Slice0/Obligations.lean ====
section
/-! DEFINITION. The statements about the model, each from the numbered rules of spec/ it cites. A response `⟨c, d⟩` has status
code `c` and data `d`; status 0 is OK (60_exceptions.md R210). -/

open Sys2Proof Sys2Proof.Machine

/-! ### Command words -/

/-- Every command is what its word decodes to (30_encoding.md R82, R86, R87). -/
def Obligations.DecodeOfEncode : Prop :=
  ∀ i : Instr, decode (encode i) = .ok i

/-- 30_encoding.md R84: decoding is total and agrees with the rows of opcode_table.json: a legal word is one row's only, and is
the word of its command; an illegal word is no row's. -/
def Obligations.DecodeMatchesOpcodeTable : Prop :=
  ∀ w : CmdWord,
    (∀ i, decode w = .ok i →
      (opcodeRows.filter fun r => r.matchesWord w).map OpcodeRow.mnemonic = [mnemonic i] ∧ encode i = w) ∧
    (∀ e, decode w = .error e → opcodeRows.filter (fun r => r.matchesWord w) = [])

/-- 30_encoding.md R88: which words are illegal, and that one presented while FAULT is 0 raises IllegalCommand. -/
def Obligations.IllegalWordsRaiseIllegalCommand : Prop :=
  ∀ w : CmdWord,
    let op := w.extractLsb' 76 4
    let illegal :=
      op = 0x0 ∨ op = 0xC ∨ op = 0xD ∨ op = 0xE ∨ op = 0xF ∨ w.extractLsb' 72 4 ≠ 0 ∨
      (w.extractLsb' 0 64 ≠ 0 ∧ (op = 0x1 ∨ op = 0x3 ∨ op = 0x5 ∨ op = 0x8 ∨ op = 0xB)) ∨
      (w.extractLsb' 64 8 ≠ 0 ∧
        (op = 0x5 ∨ op = 0x6 ∨ op = 0x7 ∨ op = 0x8 ∨ op = 0x9 ∨ op = 0xA ∨ op = 0xB))
    ((∃ e, decode w = .error e) ↔ illegal) ∧
    (illegal → ∀ (s : State) (m : MsgWord) (rest : List HostMove), s.inputs = .command w m :: rest → s.fault = 0 →
      ∃ t, step s = .next t ∧ t.fault = 4 ∧ t.rsp = some ⟨4, 0⟩ ∧ t.buf = s.buf ∧ t.tag = s.tag ∧ t.tagValid = s.tagValid)

/-- Words written out from 30_encoding.md R82 and R86 decode to the commands they stand for. -/
def Obligations.WrittenWordsDecode : Prop :=
  decode 0x100C0000000000000000 = .ok (.getf 12) ∧
  decode 0x20010000000000000008 = .ok (.setf 1 8) ∧
  decode 0x402F00000000000000FF = .ok (.setb 47 0xFF) ∧
  decode 0x70000000C0A80001007B = .ok (.tagset 0xC0A80001007B) ∧
  decode 0x9000408F400000000000 = .ok (.p2n 0x408F400000000000) ∧
  decode 0xB0000000000000000000 = .ok .rdstat

/-! ### Steps -/

/-- A presented word that decodes is performed: its move is taken from the host's queue, `msg_in` shows its message, and the
command runs (30_encoding.md R81, R85). The queue and the latched `msg_in` are the model's own (logs 1, 7). -/
def Obligations.StepPerformsTheDecodedCommand : Prop :=
  ∀ (s : State) (w : CmdWord) (m : MsgWord) (rest : List HostMove) (i : Instr),
    s.inputs = .command w m :: rest → decode w = .ok i →
    step s = exec i { s with inputs := rest, msgIn := m }

/-- With no move presented the block keeps all its state. The idle step is the model's choice (log 3), from 30_encoding.md R81
and 60_exceptions.md R227. -/
def Obligations.IdleBlockKeepsItsState : Prop :=
  ∀ s : State, s.inputs = [] → step s = .next s

/-- 70_reset_and_hazards.md R250, 30_encoding.md R81: a presented word, legal or not, gets a response of its own: the same whatever
response stood on the port before. That every step completes covers the idle step too, which is the model's (log 3). -/
def Obligations.EveryCommandIsAnswered : Prop :=
  ∀ s : State, ∃ t, step s = .next t ∧
    ∀ (w : CmdWord) (m : MsgWord) (rest : List HostMove), s.inputs = .command w m :: rest →
      ∃ r, t.rsp = some r ∧ ∀ old, step { s with rsp := old } = .next t

/-- Every step keeps the invariant `State.Inv`: BUF canonical; FAULT 0 to 5 (10_state.md R23); TAG 0 without a tag (R22); a legal
response (60_exceptions.md R210, 30_encoding.md R83). The canonical form is the model's (log 6). -/
def Obligations.StepKeepsInvariant : Prop :=
  ∀ s t : State, s.Inv → step s = .next t → t.Inv

/-- The reset state meets the invariant. -/
def Obligations.ResetMeetsInvariant : Prop := State.reset.Inv

/-- 10_state.md R31: the four registers are all there is. Two blocks that agree on them, given the same moves, give the same
responses and go on agreeing, for any number of steps. -/
def Obligations.NoHiddenState : Prop :=
  ∀ s s' : State, s.buf = s'.buf → s.tag = s'.tag → s.tagValid = s'.tagValid → s.fault = s'.fault → s.inputs = s'.inputs →
    ∀ (k : Nat) (t t' : State), Host.Core.run core k s = .next t → Host.Core.run core k s' = .next t' →
      t.buf = t'.buf ∧ t.tag = t'.tag ∧ t.tagValid = t'.tagValid ∧ t.fault = t'.fault ∧ t.inputs = t'.inputs ∧
      ((∃ w m, .command w m ∈ s.inputs.take k) → t.rsp = t'.rsp)

/-! ### Reset -/

/-- 10_state.md R33: the values after reset, which are also those a successful MCLR leaves. -/
def Obligations.ResetStateValues : Prop :=
  (∀ a, a < 48 → State.reset.buf.read a = 0) ∧ State.reset.tag = 0 ∧ State.reset.tagValid = false ∧ State.reset.fault = 0 ∧
  ∀ s : State, s.fault = 0 → ∃ t, exec .mclr s = .next t ∧ t.buf = State.reset.buf ∧ t.tag = State.reset.tag ∧
    t.tagValid = State.reset.tagValid ∧ t.fault = State.reset.fault

/-- 70_reset_and_hazards.md R240: asserting `rst` clears the four registers, from any state, and nothing else clears FAULT. It
produces no response word: that the port then stands as it was is the model's choice (log 4). -/
def Obligations.OnlyResetClearsFault : Prop :=
  (∀ (s : State) (rest : List HostMove), s.inputs = .reset :: rest →
    ∃ t, step s = .next t ∧ (∀ a, a < 48 → t.buf.read a = 0) ∧ t.tag = 0 ∧ t.tagValid = false ∧ t.fault = 0 ∧
      t.rsp = s.rsp) ∧
  (∀ s t : State, s.fault ≠ 0 → step s = .next t → t.fault = 0 → ∃ rest, s.inputs = .reset :: rest)

/-! ### Faults and the halt -/

/-- 60_exceptions.md R223: a halted block answers every word but a legal RDSTAT with Halted and changes no register. -/
def Obligations.HaltedBlockAnswersHalted : Prop :=
  ∀ (s : State) (w : CmdWord) (m : MsgWord) (rest : List HostMove),
    s.inputs = .command w m :: rest → s.fault ≠ 0 → decode w ≠ .ok .rdstat →
    ∃ t, step s = .next t ∧ t.rsp = some ⟨6, 0⟩ ∧ t.buf = s.buf ∧ t.tag = s.tag ∧ t.tagValid = s.tagValid ∧
      t.fault = s.fault ∧ t.msgOut = s.msgOut

/-- 60_exceptions.md R221, R210: the status of the response to any presented word, the first condition that holds. -/
def Obligations.StatusPriority : Prop :=
  ∀ (s : State) (w : CmdWord) (m : MsgWord) (rest : List HostMove), s.inputs = .command w m :: rest →
    ∃ t r, step s = .next t ∧ t.rsp = some r ∧ r.status =
      if s.fault ≠ 0 ∧ decode w ≠ .ok .rdstat then 6
      else
        match decode w with
        | .error _ => 4
        | .ok (.getf k) => if 13 ≤ k.toNat then 1 else 0
        | .ok (.setf k v) =>
          match Config.fieldTable[k.toNat]? with
          | none => 1
          | some f => if 2 ^ f.len ≤ v.toNat then 2 else 0
        | .ok (.getb k) => if 48 ≤ k.toNat then 3 else 0
        | .ok (.setb k v) => if 48 ≤ k.toNat then 3 else if 256 ≤ v.toNat then 2 else 0
        | .ok (.p2n x) => if posixToNtp x = none then 5 else 0
        | .ok _ => 0

/-- 60_exceptions.md R222: a command that faults writes FAULT and answers `(code, 0)`, and nothing else; FAULT changes only while
it is 0. -/
def Obligations.FaultEntryWritesOnlyFault : Prop :=
  ∀ (i : Instr) (s t : State), exec i s = .next t →
    (s.fault = 0 → t.fault ≠ 0 → t.fault ≤ 5 ∧ t = { s with fault := t.fault, rsp := some ⟨t.fault, 0⟩ }) ∧
    (s.fault ≠ 0 → t.fault = s.fault)

/-- What a command leaves alone, whatever its outcome (10_state.md R20 to R23, R32): BUF but for SETF, SETB, MCLR and MLOAD; TAG
and TAG_VALID but for MCLR, MLOAD and TAGSET; the host's ports always; and after status OK, FAULT. -/
def Obligations.CommandsLeaveTheRestAlone : Prop :=
  ∀ (i : Instr) (s t : State), exec i s = .next t →
    ((∀ k v, i ≠ .setf k v) → (∀ k v, i ≠ .setb k v) → i ≠ .mclr → (∀ x, i ≠ .mload x) → t.buf = s.buf) ∧
    (i ≠ .mclr → (∀ x, i ≠ .mload x) → (∀ x, i ≠ .tagset x) → t.tag = s.tag ∧ t.tagValid = s.tagValid) ∧
    t.inputs = s.inputs ∧ t.msgIn = s.msgIn ∧
    (∀ d, t.rsp = some ⟨0, d⟩ → t.fault = s.fault)

/-- No command but TAGGET reads TAG (10_state.md R21, R32): from two states that differ in TAG alone, every other command gives
the same response and the same registers, and TAG ends either as it was in each or as the command wrote it. -/
def Obligations.TagIsOpaque : Prop :=
  ∀ (i : Instr) (s t : State) (x : Data), i ≠ .tagget → exec i s = .next t →
    exec i { s with tag := x } = .next { t with tag := x } ∧ t.tag = s.tag ∨
    exec i { s with tag := x } = .next t

/-- 20_memory.md R59: no read changes a register, and repeating it gives the same result; a write that succeeds, done twice,
leaves what it left the first time. For blocks whose BUF is in canonical form (the invariant of StepKeepsInvariant). -/
def Obligations.ReadsAreFreeOfEffectsAndWritesIdempotent : Prop :=
  ∀ (i : Instr) (s t : State), s.buf.wf → exec i s = .next t → (∃ d, t.rsp = some ⟨0, d⟩) →
    exec i t = .next t ∧
    (((∃ k, i = .getf k) ∨ (∃ k, i = .getb k) ∨ i = .tagget ∨ i = .rdstat ∨ (∃ x, i = .p2n x) ∨ (∃ x, i = .n2p x)) →
      t = { s with rsp := t.rsp })

/-! ### The Field Table and the bit geometry -/

/-- 10_state.md R26: the thirteen fields; the table is well formed (00_scope.md R10) and every wire bit belongs to exactly one
field. -/
def Obligations.FieldTableIsTheStandardSet : Prop :=
  Config.fieldTable.map (fun f => (f.name, f.off, f.len)) =
    [("LI", 0, 2), ("VN", 2, 3), ("Mode", 5, 3), ("Stratum", 8, 8), ("Poll", 16, 8), ("Precision", 24, 8),
     ("RootDelay", 32, 32), ("RootDispersion", 64, 32), ("ReferenceIdentifier", 96, 32), ("ReferenceTimestamp", 128, 64),
     ("OriginateTimestamp", 192, 64), ("ReceiveTimestamp", 256, 64), ("TransmitTimestamp", 320, 64)] ∧
  fieldTableWellFormed Config.fieldTable = true ∧
  ∀ b, b < 384 → (Config.fieldTable.filter fun f => decide (f.off ≤ b) && decide (b < f.off + f.len)).length = 1

/-- 40_codec_ops.md R110: the geometry of any bit range inside the message. -/
def Obligations.BitGeometry : Prop :=
  ∀ o l : Nat, 1 ≤ l → o + l ≤ 384 →
    let g := bitgeom o l
    g.start = o / 8 ∧ g.stop = (o + l + 7) / 8 ∧ g.n = g.stop - g.start ∧ 1 ≤ g.n ∧ (l ≤ 64 → g.n ≤ 9) ∧ g.stop ≤ 48 ∧
    g.lead = o % 8 ∧ g.trail = 8 * g.stop - (o + l) ∧ (g.trail : ℤ) = (-((o : ℤ) + l)) % 8 ∧
    g.lead ≤ 7 ∧ g.trail ≤ 7 ∧ 8 * g.n = g.lead + l + g.trail ∧
    g.startMask = 2 ^ (8 - g.lead) - 1 ∧ g.startMask = 0xFF >>> g.lead ∧
    g.endMask = 256 - 2 ^ g.trail ∧ g.endMask = (0xFF <<< g.trail) &&& 0xFF ∧
    (l ≤ 64 → (g.n = 9 ↔ 64 < g.lead + l))

/-- 10_state.md R27: the geometry of the thirteen standard fields (start, end, n, lead, trail, start_mask, end_mask), and the
owned bits of the six that lie in one byte. -/
def Obligations.StandardFieldGeometry : Prop :=
  (Config.fieldTable.map fun f => bitgeom f.off f.len) =
    [⟨0, 1, 1, 0, 6, 0xFF, 0xC0⟩, ⟨0, 1, 1, 2, 3, 0x3F, 0xF8⟩, ⟨0, 1, 1, 5, 0, 0x07, 0xFF⟩, ⟨1, 2, 1, 0, 0, 0xFF, 0xFF⟩,
     ⟨2, 3, 1, 0, 0, 0xFF, 0xFF⟩, ⟨3, 4, 1, 0, 0, 0xFF, 0xFF⟩, ⟨4, 8, 4, 0, 0, 0xFF, 0xFF⟩, ⟨8, 12, 4, 0, 0, 0xFF, 0xFF⟩,
     ⟨12, 16, 4, 0, 0, 0xFF, 0xFF⟩, ⟨16, 24, 8, 0, 0, 0xFF, 0xFF⟩, ⟨24, 32, 8, 0, 0, 0xFF, 0xFF⟩,
     ⟨32, 40, 8, 0, 0, 0xFF, 0xFF⟩, ⟨40, 48, 8, 0, 0, 0xFF, 0xFF⟩] ∧
  ((Config.fieldTable.map fun f => bitgeom f.off f.len).filterMap fun g =>
    if g.n = 1 then some (g.startMask &&& g.endMask) else none) = [0xC0, 0x38, 0x07, 0xFF, 0xFF, 0xFF]

/-! ### Memory -/

/-- MemRead is the big-endian sum of the bytes, and MemWrite stores the value's bytes most significant first and leaves every
other byte as it was (00_scope.md R13, 20_memory.md R51). -/
def Obligations.ByteRangesAreBigEndian : Prop :=
  ∀ (m : Memory) (addr n : Nat),
    m.readBE addr n = ∑ j ∈ Finset.range n, (m.read (addr + j)).toNat * 256 ^ (n - 1 - j) ∧
    ∀ v : Nat,
      (∀ j, j < n → (m.writeBE addr n v).read (addr + j) = BitVec.ofNat 8 (v / 256 ^ (n - 1 - j))) ∧
      (∀ a, a < addr ∨ addr + n ≤ a → (m.writeBE addr n v).read a = m.read a)

/-- 20_memory.md R54: `msg_out` always shows BUF, equals MSGINT as an integer, and has wire bit `b` at bit `383 - b`; MLOAD reads
`msg_in` in the same layout. -/
def Obligations.MessagePortsShowTheBuffer : Prop :=
  ∀ s : State,
    (∀ i, i < 48 → s.msgOut.extractLsb' (376 - 8 * i) 8 = s.buf.read i) ∧
    s.msgOut.toNat = s.msgInt ∧
    (∀ b, b < 384 → s.wireBit b = s.msgOut.getLsbD (383 - b)) ∧
    (s.fault = 0 → ∀ tag : Data, ∃ t, exec (.mload tag) s = .next t ∧
      ∀ i, i < 48 → t.buf.read i = s.msgIn.extractLsb' (376 - 8 * i) 8)

/-- The byte-range form of a field access (40_codec_ops.md R110 to R112, R124) is the whole-buffer form (R119), at every bit
offset and every length to 64 bits, aligned or not. -/
def Obligations.FieldAccessIsWholeBufferForm : Prop :=
  ∀ (s : State) (o l : Nat), 1 ≤ l → l ≤ 64 → o + l ≤ 384 →
    let p := 384 - o - l
    let x := s.msgInt / 2 ^ p % 2 ^ l
    fieldRead s o l = some x ∧
    ∀ v, v < 2 ^ l → ∃ t, fieldWrite s o l v = some t ∧ t.msgInt = s.msgInt - x * 2 ^ p + v * 2 ^ p ∧
      t = { s with buf := t.buf }

/-- 40_codec_ops.md R123: a field inside one byte. It reads `(BUF[start] mod 2^(8-lead)) >> trail`, and a write keeps the bits of
the byte it does not own. -/
def Obligations.SingleByteFields : Prop :=
  ∀ (s : State) (o l v : Nat), 1 ≤ l → o + l ≤ 384 → (bitgeom o l).n = 1 → v < 2 ^ l →
    let g := bitgeom o l
    let old := (s.buf.read g.start).toNat
    let owned := g.startMask &&& g.endMask
    owned = (2 ^ l - 1) <<< g.trail ∧
    fieldRead s o l = some ((old % 2 ^ (8 - g.lead)) >>> g.trail) ∧
    fieldWrite s o l v =
      some { s with buf := s.buf.write g.start (BitVec.ofNat 8 ((old &&& (255 - owned)) ||| (v <<< g.trail))) }

/-! ### Field commands -/

/-- 40_codec_ops.md R111: GETF. -/
def Obligations.GetfReadsTheField : Prop :=
  ∀ (s : State) (sel : Sel), s.fault = 0 →
    (∀ f, Config.fieldTable[sel.toNat]? = some f →
      let start := f.off / 8
      let n := (f.off + f.len + 7) / 8 - start
      let lead := f.off % 8
      let trail := 8 * (start + n) - (f.off + f.len)
      let v := s.buf.readBE start n % 2 ^ (8 * n - lead) / 2 ^ trail
      v < 2 ^ f.len ∧ exec (.getf sel) s = .next { s with rsp := some ⟨0, BitVec.ofNat 64 v⟩ }) ∧
    (13 ≤ sel.toNat → exec (.getf sel) s = .next { s with fault := 1, rsp := some ⟨1, 0⟩ })

/-- 40_codec_ops.md R112: SETF. The word of the touched bytes keeps its `lead` high and `trail` low bits and takes the value
between them; no byte outside them changes; the index is checked before the value. -/
def Obligations.SetfWritesTheField : Prop :=
  ∀ (s : State) (sel : Sel) (wdata : Data), s.fault = 0 →
    (∀ f, Config.fieldTable[sel.toNat]? = some f →
      let start := f.off / 8
      let n := (f.off + f.len + 7) / 8 - start
      let lead := f.off % 8
      let trail := 8 * (start + n) - (f.off + f.len)
      let W := s.buf.readBE start n
      let W' := (W - W % 2 ^ (8 * n - lead)) + wdata.toNat * 2 ^ trail + W % 2 ^ trail
      (wdata.toNat < 2 ^ f.len →
        exec (.setf sel wdata) s = .next { s with buf := s.buf.writeBE start n W', rsp := some ⟨0, 0⟩ } ∧
        W' < 256 ^ n ∧ W' % 2 ^ trail = W % 2 ^ trail ∧ W' / 2 ^ trail % 2 ^ f.len = wdata.toNat ∧
        W' / 2 ^ (trail + f.len) = W / 2 ^ (trail + f.len) ∧
        ∀ a, a < start ∨ start + n ≤ a → (s.buf.writeBE start n W').read a = s.buf.read a) ∧
      (2 ^ f.len ≤ wdata.toNat → exec (.setf sel wdata) s = .next { s with fault := 2, rsp := some ⟨2, 0⟩ })) ∧
    (13 ≤ sel.toNat → exec (.setf sel wdata) s = .next { s with fault := 1, rsp := some ⟨1, 0⟩ })

/-- 40_codec_ops.md R119: GETF and SETF on MSGINT, and bit by bit. -/
def Obligations.FieldCommandsOnTheWholeBuffer : Prop :=
  ∀ (s : State) (sel : Sel) (f : MessageField), s.fault = 0 → Config.fieldTable[sel.toNat]? = some f →
    let p := 384 - f.off - f.len
    let x := s.msgInt / 2 ^ p % 2 ^ f.len
    exec (.getf sel) s = .next { s with rsp := some ⟨0, BitVec.ofNat 64 x⟩ } ∧
    (∀ i, i < f.len → x.testBit (f.len - 1 - i) = s.wireBit (f.off + i)) ∧
    ∀ wdata : Data, wdata.toNat < 2 ^ f.len → ∃ t, exec (.setf sel wdata) s = .next t ∧
      t.msgInt = s.msgInt - x * 2 ^ p + wdata.toNat * 2 ^ p ∧
      (∀ i, i < f.len → t.wireBit (f.off + i) = wdata.getLsbD (f.len - 1 - i)) ∧
      (∀ b, b < f.off ∨ f.off + f.len ≤ b → t.wireBit b = s.wireBit b)

/-- 40_codec_ops.md R120: after SETF answers OK, GETF answers the value written. -/
def Obligations.SetfThenGetf : Prop :=
  ∀ (s t : State) (sel : Sel) (wdata : Data), exec (.setf sel wdata) s = .next t → t.rsp = some ⟨0, 0⟩ →
    exec (.getf sel) t = .next { t with rsp := some ⟨0, wdata⟩ }

/-- 40_codec_ops.md R121: no bit bleed. After SETF answers OK, every other field reads as before, and every wire bit outside the
field, in no field even, is as before. -/
def Obligations.NoBitBleed : Prop :=
  ∀ (s t : State) (sel j : Sel) (wdata : Data), exec (.setf sel wdata) s = .next t → t.rsp = some ⟨0, 0⟩ →
    (j ≠ sel → j.toNat < 13 →
      ∃ v, exec (.getf j) s = .next { s with rsp := some ⟨0, v⟩ } ∧ exec (.getf j) t = .next { t with rsp := some ⟨0, v⟩ }) ∧
    (∀ f, Config.fieldTable[sel.toNat]? = some f →
      ∀ b, b < f.off ∨ f.off + f.len ≤ b → t.wireBit b = s.wireBit b)

/-- A message on `msg_out` loaded into any running block gives every field its value (40_codec_ops.md R122, through the ports). -/
def Obligations.ReparsedMessageHasTheSameFields : Prop :=
  ∀ (s s' : State) (tag : Data) (sel : Sel), s.fault = 0 → s'.fault = 0 → sel.toNat < 13 →
    ∃ t v, exec (.mload tag) { s' with msgIn := s.msgOut } = .next t ∧ t.msgOut = s.msgOut ∧
      exec (.getf sel) s = .next { s with rsp := some ⟨0, v⟩ } ∧ exec (.getf sel) t = .next { t with rsp := some ⟨0, v⟩ }

/-! ### Byte commands -/

/-- 40_codec_ops.md R113: GETB. -/
def Obligations.GetbReadsTheByte : Prop :=
  ∀ (s : State) (sel : Sel), s.fault = 0 →
    (sel.toNat < 48 →
      exec (.getb sel) s = .next { s with rsp := some ⟨0, (s.buf.read sel.toNat).setWidth 64⟩ }) ∧
    (48 ≤ sel.toNat → exec (.getb sel) s = .next { s with fault := 3, rsp := some ⟨3, 0⟩ })

/-- 40_codec_ops.md R114: SETB. It writes its byte whole and no other; the index is checked before the value. -/
def Obligations.SetbWritesTheByte : Prop :=
  ∀ (s : State) (sel : Sel) (wdata : Data), s.fault = 0 →
    (sel.toNat < 48 → wdata.toNat < 256 → ∃ t, exec (.setb sel wdata) s = .next t ∧
      t = { s with buf := t.buf, rsp := some ⟨0, 0⟩ } ∧ t.buf.read sel.toNat = wdata.setWidth 8 ∧
      ∀ a, a ≠ sel.toNat → t.buf.read a = s.buf.read a) ∧
    (sel.toNat < 48 → 256 ≤ wdata.toNat →
      exec (.setb sel wdata) s = .next { s with fault := 2, rsp := some ⟨2, 0⟩ }) ∧
    (48 ≤ sel.toNat → exec (.setb sel wdata) s = .next { s with fault := 3, rsp := some ⟨3, 0⟩ })

/-- Byte and field views agree (20_memory.md R55): after SETF, GETB answers the bytes of the word written; after SETB, GETF of a
field that overlaps the byte answers the new byte's bits, and the old ones elsewhere. -/
def Obligations.ByteAndFieldViewsAgree : Prop :=
  ∀ (s : State) (sel : Sel) (f : MessageField), s.fault = 0 → Config.fieldTable[sel.toNat]? = some f →
    (∀ wdata : Data, wdata.toNat < 2 ^ f.len → ∃ t, exec (.setf sel wdata) s = .next t ∧
      ∀ i : Sel, geomStart f.off ≤ i.toNat → i.toNat < geomStop f.off f.len →
        exec (.getb i) t = .next { t with rsp := some ⟨0, BitVec.ofNat 64
          (insertField (s.buf.readBE (geomStart f.off) (geomBytes f.off f.len)) (geomBytes f.off f.len) (geomLead f.off)
            (geomTrail f.off f.len) wdata.toNat / 256 ^ (geomStop f.off f.len - 1 - i.toNat) % 256)⟩ }) ∧
    (∀ (i : Sel) (wdata : Data), i.toNat < 48 → wdata.toNat < 256 → ∃ t v, exec (.setb i wdata) s = .next t ∧
      exec (.getf sel) t = .next { t with rsp := some ⟨0, v⟩ } ∧
      ∀ k, k < f.len → v.getLsbD (f.len - 1 - k) =
        if (f.off + k) / 8 = i.toNat then wdata.getLsbD (7 - (f.off + k) % 8) else s.wireBit (f.off + k))

/-! ### Whole-message and tag commands -/

/-- 40_codec_ops.md R115: MCLR, after which every GETF and GETB answers 0; it does not clear FAULT. -/
def Obligations.MclrClearsTheMessage : Prop :=
  ∀ s : State,
    (s.fault = 0 → ∃ t, exec .mclr s = .next t ∧ t = { s with buf := t.buf, tag := 0, tagValid := false, rsp := some ⟨0, 0⟩ } ∧
      (∀ i, i < 48 → t.buf.read i = 0) ∧
      (∀ sel : Sel, sel.toNat < 13 → exec (.getf sel) t = .next { t with rsp := some ⟨0, 0⟩ }) ∧
      (∀ sel : Sel, sel.toNat < 48 → exec (.getb sel) t = .next { t with rsp := some ⟨0, 0⟩ })) ∧
    (s.fault ≠ 0 → exec .mclr s = .next { s with rsp := some ⟨6, 0⟩ })

/-- 40_codec_ops.md R116: MLOAD, for any 384 bits and any tag. -/
def Obligations.MloadLoadsTheMessage : Prop :=
  ∀ (s : State) (tag : Data), s.fault = 0 → ∃ t, exec (.mload tag) s = .next t ∧
    t = { s with buf := t.buf, tag := tag, tagValid := true, rsp := some ⟨0, 0⟩ } ∧
    ∀ i, i < 48 → t.buf.read i = s.msgIn.extractLsb' (376 - 8 * i) 8

/-- 40_codec_ops.md R117: TAGSET. -/
def Obligations.TagsetAttachesTheTag : Prop :=
  ∀ (s : State) (tag : Data), s.fault = 0 →
    exec (.tagset tag) s = .next { s with tag := tag, tagValid := true, rsp := some ⟨0, 0⟩ }

/-- 40_codec_ops.md R118: TAGGET answers TAG. That is what the last TAGSET or MLOAD wrote, whatever moves that write no tag came
between, and 0 when no tag is attached (in states that keep 10_state.md R22, which StepKeepsInvariant states). -/
def Obligations.TaggetReadsTheTag : Prop :=
  ∀ s : State, s.fault = 0 →
    exec .tagget s = .next { s with rsp := some ⟨0, s.tag⟩ } ∧
    (s.Inv → s.tagValid = false → exec .tagget s = .next { s with rsp := some ⟨0, 0⟩ }) ∧
    ∀ (tag : Data) (k : Nat) (t u : State), (exec (.tagset tag) s = .next t ∨ exec (.mload tag) s = .next t) →
      Host.Core.run core k t = .next u → (∀ m ∈ s.inputs.take k, writesTag m = false) → u.fault = 0 →
      exec .tagget u = .next { u with rsp := some ⟨0, tag⟩ }

/-- 43_system_ops.md R200: RDSTAT, in every state, halted or not; a malformed RDSTAT word is illegal, and a halted block performs
nothing else. -/
def Obligations.RdstatReadsTheStatus : Prop :=
  (∀ s : State,
    exec .rdstat s = .next { s with rsp := some ⟨0, BitVec.ofNat 64 (s.tagValid.toNat * 256 + s.fault.toNat)⟩ }) ∧
  (∀ w : CmdWord, w.extractLsb' 76 4 = 0xB →
    decode w = .ok .rdstat ∧ w = 0xB0000000000000000000 ∨ (∃ e, decode w = .error e) ∧ w ≠ 0xB0000000000000000000) ∧
  (∀ (i : Instr) (s : State), s.fault ≠ 0 → i ≠ .rdstat → exec i s = .next { s with rsp := some ⟨6, 0⟩ })

/-! ### Numbers -/

/-- 41_timestamp_ops.md R144: the value of a binary64 pattern, as a fraction, is the rational the rule gives. -/
def Obligations.Binary64Values : Prop :=
  ∀ b : Data,
    (f64val b).map (fun p => (p.1 : ℚ) / p.2) = f64valQ b ∧ (∀ n d, f64val b = some (n, d) → 0 < d) ∧
    (f64val b = none ↔ b.extractLsb' 52 11 = 2047)

/-- 41_timestamp_ops.md R145: rounding to the nearest integer, ties to even, and its translation by even integers. -/
def Obligations.RoundHalfEven : Prop :=
  ∀ (num : ℤ) (den : ℕ), 0 < den →
    rhe num den = rheQ ((num : ℚ) / den) ∧
    |(rhe num den : ℚ) - (num : ℚ) / den| ≤ 1 / 2 ∧
    ∀ n : ℤ, rheQ ((num : ℚ) / den + 2 * n) = rheQ ((num : ℚ) / den) + 2 * n

/-- 41_timestamp_ops.md R146: `rne64` gives the pattern the rule defines, refuses outside its range, and is exact on values of at
most 53 significant bits. -/
def Obligations.NearestBinary64 : Prop :=
  ∀ (num : ℤ) (den : ℕ), 0 < den →
    let q : ℚ := (num : ℚ) / den
    (q = 0 ∨ ((2 : ℚ) ^ (-1022 : ℤ) ≤ |q| ∧ |q| < 2 ^ 1024 - 2 ^ 970) → ∃ x, rne64 num den = some x ∧ IsRne64 q x ∧
      ((∃ (M : ℕ) (j : ℤ), M < 2 ^ 53 ∧ |q| = M * (2 : ℚ) ^ j) → f64valQ x = some q)) ∧
    (q ≠ 0 → (|q| < (2 : ℚ) ^ (-1022 : ℤ) ∨ 2 ^ 1024 - 2 ^ 970 ≤ |q|) → rne64 num den = none)

/-! ### Converter commands -/

/-- 41_timestamp_ops.md R147: P2N, on rationals as the rule writes it. It rests on the epoch offset (log 9) and on the binary64
format and tie rule (log 10), both PRESUMED. -/
def Obligations.P2nConverts : Prop :=
  ∀ (s : State) (wdata : Data), s.fault = 0 →
    (f64valQ wdata = none → exec (.p2n wdata) s = .next { s with fault := 5, rsp := some ⟨5, 0⟩ }) ∧
    (∀ x, f64valQ wdata = some x →
      let w := ⌊x⌋
      let lo := rheQ ((x - w) * 2 ^ 32)
      let t := w * 2 ^ 32 + lo + 0x83AA7E8000000000
      0 ≤ lo ∧ lo ≤ 2 ^ 32 ∧
      (0 ≤ t ∧ t < 2 ^ 64 → exec (.p2n wdata) s = .next { s with rsp := some ⟨0, BitVec.ofInt 64 t⟩ }) ∧
      (t < 0 ∨ 2 ^ 64 ≤ t → exec (.p2n wdata) s = .next { s with fault := 5, rsp := some ⟨5, 0⟩ }))

/-- 41_timestamp_ops.md R149: P2N rounds once. It rests on the epoch offset (log 9) and on the binary64 format (log 10), both
PRESUMED. -/
def Obligations.P2nRoundsOnce : Prop :=
  ∀ (wdata : Data) (x : ℚ), f64valQ wdata = some x →
    let t := rheQ (x * 2 ^ 32) + 0x83AA7E8000000000
    posixToNtp wdata = (if 0 ≤ t ∧ t < 2 ^ 64 then some (BitVec.ofInt 64 t) else none) ∧
    (1043 ≤ (wdata.extractLsb' 52 11).toNat → ∃ n : ℤ, x * 2 ^ 32 = n)

/-- 41_timestamp_ops.md R150: the domain of P2N, and its least and greatest accepted patterns with their refused neighbours. It
rests on the epoch offset (log 9) and on the binary64 format and tie rule (log 10), both PRESUMED. -/
def Obligations.P2nDomain : Prop :=
  (∀ wdata : Data, (∃ t, posixToNtp wdata = some t) ↔
    ∃ x, f64valQ wdata = some x ∧ -2208988800 - 1 / 2 ^ 33 ≤ x ∧ x < 2085978496 - 1 / 2 ^ 33) ∧
  (∀ (wdata t : Data) (x : ℚ), posixToNtp wdata = some t → f64valQ wdata = some x →
    -2208988800 ≤ x ∧ x ≤ 2085978496 - 1 / 2 ^ 22) ∧
  (f64valQ 0xC1E0754FD0000000 = some (-2208988800) ∧ posixToNtp 0xC1E0754FD0000000 = some 0 ∧
    posixToNtp 0xC1E0754FD0000001 = none) ∧
  (f64valQ 0x41DF15605FFFFFFF = some (2085978496 - 1 / 2 ^ 22) ∧
    posixToNtp 0x41DF15605FFFFFFF = some 0xFFFFFFFFFFFFFC00 ∧
    f64valQ 0x41DF156060000000 = some 2085978496 ∧ posixToNtp 0x41DF156060000000 = none)

/-- 41_timestamp_ops.md R148 (logs 9, 10): N2P answers every timestamp with the binary64 nearest its exact signed difference from K, never
-0, an infinity, a NaN or a subnormal. -/
def Obligations.N2pConverts : Prop :=
  ∀ (s : State) (wdata : Data), s.fault = 0 →
    let d : ℤ := (wdata.toNat : ℤ) - 0x83AA7E8000000000
    let whole : ℤ := d / 2 ^ 32
    let frac : ℤ := d % 2 ^ 32
    frac = ((wdata.extractLsb' 0 32).toNat : ℤ) ∧ whole = ((wdata.extractLsb' 32 32).toNat : ℤ) - 2208988800 ∧
    ∃ x y, exec (.n2p wdata) s = .next { s with rsp := some ⟨0, x⟩ } ∧
      IsRne64 ((whole : ℚ) + (frac : ℚ) / 2 ^ 32) x ∧ f64valQ x = some y ∧ -2208988800 ≤ y ∧ y ≤ 2085978496 ∧
      x ≠ 0x8000000000000000 ∧ (x = 0 ∨ x.extractLsb' 52 11 ≠ 0)

/-- 41_timestamp_ops.md R151: the round trips (logs 9, 10). -/
def Obligations.TimestampRoundTrip : Prop :=
  (∀ (wdata t : Data) (x : ℚ), f64valQ wdata = some x → posixToNtp wdata = some t →
    ∃ b y, ntpToPosix t = some b ∧ f64valQ b = some y ∧ y = (rheQ (x * 2 ^ 32) : ℚ) / 2 ^ 32 ∧ |y - x| ≤ 1 / 2 ^ 33 ∧
      ((∃ n : ℤ, x * 2 ^ 32 = n) → y = x ∧ (b = wdata ∨ (wdata = 0x8000000000000000 ∧ b = 0)))) ∧
  (∀ t : Data, |(t.toNat : ℤ) - 0x83AA7E8000000000| < 2 ^ 53 → ∃ b, ntpToPosix t = some b ∧ posixToNtp b = some t)

/-- 41_timestamp_ops.md R152: the conversions are functions of `wdata`: the same response in every state with FAULT 0. -/
def Obligations.ConversionsAreDeterministic : Prop :=
  ∀ (s s' t t' : State) (wdata : Data), s.fault = 0 → s'.fault = 0 →
    (exec (.p2n wdata) s = .next t → exec (.p2n wdata) s' = .next t' → t.rsp = t'.rsp) ∧
    (exec (.n2p wdata) s = .next t → exec (.n2p wdata) s' = .next t' → t.rsp = t'.rsp)

/-! ### Several blocks, runs, and the host's side -/

/-- 20_memory.md R66: a step of one block changes no other, and depends on no other. -/
def Obligations.BlocksAreIndependent : Prop :=
  ∀ (bs cs : List State) (k : Nat), stepBlock bs k = .next cs →
    cs.length = bs.length ∧ (∀ j, j ≠ k → cs[j]? = bs[j]?) ∧
    ∀ s, bs[k]? = some s → ∃ t, step s = .next t ∧ cs[k]? = some t ∧
      ∀ bs' : List State, bs'[k]? = some s → stepBlock bs' k = .next (bs'.set k t)

/-- 70_reset_and_hazards.md R251, both ways: the run of all presented moves ended well exactly when every presented word was answered
OK and FAULT is 0 at the end. A run in which FAULT came to be non-zero did not end well, resets or not (60_exceptions.md R223); nor
did one that began halted and holds no reset. The run is the host's queue of moves (log 1). -/
def Obligations.FaultedRunDidNotEndWell : Prop :=
  ∀ s : State,
    (∀ (k : Nat) (t : State), Host.Core.run core k s = .next t → k ≤ s.inputs.length → t.fault ≠ 0 →
      (s.fault = 0 ∨ ∀ m ∈ s.inputs, m ≠ .reset) → endedWell s = false) ∧
    (endedWell s = true ↔
      (∃ t, Host.Core.run core s.inputs.length s = .next t ∧ t.fault = 0) ∧
      ∀ (k : Nat) (w : CmdWord) (m : MsgWord), s.inputs[k]? = some (.command w m) →
        ∃ t r, Host.Core.run core (k + 1) s = .next t ∧ t.rsp = some r ∧ r.status = 0)

/-- 30_encoding.md R91: the field names are constants for the table's indices, as operands of a line; and an operand that is neither
a number nor one of the thirteen names is no field, so that no GETF or SETF line with it assembles. -/
def Obligations.FieldNamesAreIndices : Prop :=
  ([("LI", selLI), ("VN", selVN), ("Mode", selMode), ("Stratum", selStratum), ("Poll", selPoll), ("Precision", selPrecision),
    ("RootDelay", selRootDelay), ("RootDispersion", selRootDispersion), ("ReferenceIdentifier", selReferenceIdentifier),
    ("ReferenceTimestamp", selReferenceTimestamp), ("OriginateTimestamp", selOriginateTimestamp),
    ("ReceiveTimestamp", selReceiveTimestamp), ("TransmitTimestamp", selTransmitTimestamp)].map
      fun p => (fieldIndex p.1, readField p.1.toList, p.2.toNat)) = (List.range 13).map (fun k => (some k, some k, k)) ∧
  (∀ name k, fieldIndex name = some k → ∃ f, Config.fieldTable[k]? = some f ∧ f.name = name) ∧
  ∀ operand : List Char, readNumber operand = none → (∀ f ∈ Config.fieldTable, f.name.toList ≠ operand) →
    readField operand = none ∧ readCommand "GETF" [operand] = none ∧ ∀ value, readCommand "SETF" [operand, value] = none

/-- 30_encoding.md R90: each line form assembles to the word `{op, 0x0, sel, wdata}` of its command, its unused fields 0, with the
bracket of MLOAD on `msg_in`, when its operands fit their fields, and to nothing when one does not. The 0 that `msg_in` shows with
every other command, and that P2N's bits are held to the same fit, are the model's choice (log 16). -/
def Obligations.AssembledLinesAreCommandWords : Prop :=
  (∀ field, AsmLine.move (.getf field) =
    if field < 2 ^ 8 then some (.command (commandWord 0x1 (BitVec.ofNat 8 field) 0) 0) else none) ∧
  (∀ field value, AsmLine.move (.setf field value) =
    if field < 2 ^ 8 ∧ value < 2 ^ 64 then
      some (.command (commandWord 0x2 (BitVec.ofNat 8 field) (BitVec.ofNat 64 value)) 0) else none) ∧
  (∀ index, AsmLine.move (.getb index) =
    if index < 2 ^ 8 then some (.command (commandWord 0x3 (BitVec.ofNat 8 index) 0) 0) else none) ∧
  (∀ index value, AsmLine.move (.setb index value) =
    if index < 2 ^ 8 ∧ value < 2 ^ 64 then
      some (.command (commandWord 0x4 (BitVec.ofNat 8 index) (BitVec.ofNat 64 value)) 0) else none) ∧
  AsmLine.move .mclr = some (.command (commandWord 0x5 0 0) 0) ∧
  (∀ tag message, AsmLine.move (.mload tag message) =
    if tag < 2 ^ 64 then some (.command (commandWord 0x6 0 (BitVec.ofNat 64 tag)) message) else none) ∧
  (∀ tag, AsmLine.move (.tagset tag) =
    if tag < 2 ^ 64 then some (.command (commandWord 0x7 0 (BitVec.ofNat 64 tag)) 0) else none) ∧
  AsmLine.move .tagget = some (.command (commandWord 0x8 0 0) 0) ∧
  (∀ bits, AsmLine.move (.p2n bits) =
    if bits < 2 ^ 64 then some (.command (commandWord 0x9 0 (BitVec.ofNat 64 bits)) 0) else none) ∧
  (∀ timestamp, AsmLine.move (.n2p timestamp) =
    if timestamp < 2 ^ 64 then some (.command (commandWord 0xA 0 (BitVec.ofNat 64 timestamp)) 0) else none) ∧
  AsmLine.move .rdstat = some (.command (commandWord 0xB 0 0) 0) ∧
  ∀ (a : AsmLine) (w : CmdWord) (m : MsgWord), a.move = some (.command w m) →
    ∃ i, a.command = some i ∧ decode w = .ok i ∧ w = encode i ∧ m = a.message

/-- 42_host_sequences.md R173: the request a client builds, on any running block. -/
def Obligations.ClientRequestMessage : Prop :=
  ∀ (s : State) (now t1 : Data), s.fault = 0 → posixToNtp now = some t1 →
    ∃ t, clientSend s now = some (t, .requestSent t1, t.msgOut) ∧ t.fault = 0 ∧
      t.msgOut = (0xE30F : BitVec 16) ++ (0 : BitVec 176) ++ t1 ++ (0 : BitVec 64) ++ t1

/-- 42_host_sequences.md R175: the client's validation. -/
def Obligations.ClientValidation : Prop :=
  ∀ t1 o st x m : Data,
    (o ≠ t1 → validate t1 o st x m = some .replayMismatch) ∧
    (o = t1 → (st = 0 ∨ x = 0 ∨ (m ≠ 4 ∧ m ≠ 5)) → validate t1 o st x m = some .nonCompliant) ∧
    (o = t1 → st ≠ 0 → x ≠ 0 → (m = 4 ∨ m = 5) → validate t1 o st x m = none)

/-- A response handed over by the transport (42_host_sequences.md R174): T4 is taken, then the message and its source stand in
the block. -/
def Obligations.ClientReceivesTheResponse : Prop :=
  ∀ (s : State) (t1 now t4 source : Data) (response : MsgWord), s.fault = 0 → posixToNtp now = some t4 →
    ∃ t, clientReceive s t1 now response source = some (t, .responseReceived t1 t4) ∧ t.msgOut = response ∧
      t.tag = source ∧ t.tagValid = true ∧ t.fault = 0

/-- 42_host_sequences.md R180, R182: what an accepted response yields. Both differences are rounded once; theta is exactly half
its rounded difference; the corrected time is one rounding of `ntp_to_posix(T4) + theta`. -/
def Obligations.AcceptedExchangeResults : Prop :=
  ∀ (s : State) (t1 t4 : Data), s.fault = 0 →
    validate t1 (s.msgOut.extractLsb' 128 64) ((s.msgOut.extractLsb' 368 8).setWidth 64) (s.msgOut.extractLsb' 0 64)
      ((s.msgOut.extractLsb' 376 3).setWidth 64) = none →
    let t2 := s.msgOut.extractLsb' 64 64
    let t3 := s.msgOut.extractLsb' 0 64
    let d : ℤ := ((t4.toNat : ℤ) - t1.toNat) - ((t3.toNat : ℤ) - t2.toNat)
    let th : ℤ := ((t2.toNat : ℤ) - t1.toNat) + ((t3.toNat : ℤ) - t4.toNat)
    ∃ (t : State) (r : SyncResult) (x y : Data) (vx vy : ℚ), clientFinish s t1 t4 = some (t, .accepted r) ∧
      t.fault = 0 ∧ t.buf = s.buf ∧ t.tag = s.tag ∧ t.tagValid = s.tagValid ∧
      IsRne64 ((d : ℚ) / 2 ^ 32) r.delay ∧
      IsRne64 ((th : ℚ) / 2 ^ 32) y ∧ f64valQ y = some vy ∧ IsRne64 (vy / 2) r.offset ∧ f64valQ r.offset = some (vy / 2) ∧
      ntpToPosix t4 = some x ∧ f64valQ x = some vx ∧ IsRne64 (vx + vy / 2) r.corrected

/-- A rejected response leaves the block as it was: no fault, the same message and tag (42_host_sequences.md R183). The rejection
follows the fields of the loaded message (R175). The client is a host function of the model (log 14). -/
def Obligations.RejectionIsAHostOutcome : Prop :=
  ∀ (s : State) (t1 t4 : Data) (reason : RejectReason), s.fault = 0 →
    validate t1 (s.msgOut.extractLsb' 128 64) ((s.msgOut.extractLsb' 368 8).setWidth 64) (s.msgOut.extractLsb' 0 64)
      ((s.msgOut.extractLsb' 376 3).setWidth 64) = some reason →
    ∃ t, clientFinish s t1 t4 = some (t, .rejected reason) ∧ t.fault = 0 ∧ t.buf = s.buf ∧ t.tag = s.tag ∧
      t.tagValid = s.tagValid

/-- Every exchange ends, in a block that is not halted, for any clock readings that P2N converts (42_host_sequences.md R172, R174,
R187): with a response, in Accepted or Rejected; with a socket-level failure in TransportError and with a timeout in a failure of its
own, both leaving the block as the request left it. The client is a host function of the model, and the timeout's kind has its name
from the model (log 14). -/
def Obligations.ClientExchangeEnds : Prop :=
  ∀ (s : State) (sendTime receiveTime t1 : Data), s.fault = 0 → posixToNtp sendTime = some t1 →
    (∀ (t4 : Data) (response : MsgWord) (source : Data), posixToNtp receiveTime = some t4 → ∃ t phase,
      clientExchange s sendTime (.received response source) receiveTime = some (t, phase) ∧ t.fault = 0 ∧
      t.msgOut = response ∧ t.tag = source ∧ ((∃ r, phase = .accepted r) ∨ ∃ reason, phase = .rejected reason)) ∧
    ∃ t, clientSend s sendTime = some (t, .requestSent t1, t.msgOut) ∧ t.fault = 0 ∧
      clientExchange s sendTime .socketFailure receiveTime = some (t, .transportError) ∧
      clientExchange s sendTime .timeout receiveTime = some (t, .timedOut)

/-- The exact delay and offset have magnitude below `2^65`; where one lies in `[-2^63, 2^63)`, 64-bit two's-complement arithmetic
gives it (42_host_sequences.md R181). -/
def Obligations.ExactDifferencesAreTwosComplement : Prop :=
  ∀ t1 t2 t3 t4 : Data,
    let inRange := fun z : ℤ => -2 ^ 63 ≤ z ∧ z < 2 ^ 63
    |delayFx t1 t2 t3 t4| < 2 ^ 65 ∧ |offsetFx t1 t2 t3 t4| < 2 ^ 65 ∧
    (inRange (delayFx t1 t2 t3 t4) → ((t4 - t1) - (t3 - t2)).toInt = delayFx t1 t2 t3 t4) ∧
    (inRange (offsetFx t1 t2 t3 t4) → ((t2 - t1) + (t3 - t4)).toInt = offsetFx t1 t2 t3 t4)

/-- The response a server builds from a request (42_host_sequences.md R184), for configured values that fit their fields: the
request's transmit time echoed, the request's source as the destination. -/
def Obligations.ServerResponseMessage : Prop :=
  ∀ (s : State) (c : ServerConfig) (request : MsgWord) (source rxTime txTime trx ttx : Data),
    s.fault = 0 → c.li.toNat < 4 → c.stratum.toNat < 256 → c.refId.toNat < 2 ^ 32 →
    posixToNtp rxTime = some trx → posixToNtp txTime = some ttx →
    ∃ t, serverRespond s c request source rxTime txTime = some (t, t.msgOut, source) ∧ t.fault = 0 ∧ t.tagValid = false ∧
      t.msgOut = c.li.extractLsb' 0 2 ++ (4 : BitVec 3) ++ (4 : BitVec 3) ++ c.stratum.extractLsb' 0 8 ++ (0 : BitVec 80) ++
        c.refId.extractLsb' 0 32 ++ c.reference ++ request.extractLsb' 0 64 ++ trx ++ ttx
end

