-- ==== Sys2Proof/Laws/Memory.lean ====
section
/-! SUPPORT. The buffer: what reading a byte gives after a write, that every operation keeps the canonical form, that canonical
contents with equal bytes are equal, and the byte ranges. -/

namespace Sys2Proof.Machine

/-! ### One byte -/

@[simp] theorem Memory.read_nil (a : Nat) : Memory.read [] a = 0 := rfl

theorem Memory.read_cons (c : Host.Cell) (m : Memory) (a : Nat) :
    Memory.read (c :: m) a = if c.1 = a then c.2 else m.read a := rfl

theorem Memory.read_erase (m : Memory) (a b : Nat) :
    (m.erase a).read b = if b = a then 0 else m.read b := by
  induction m with
  | nil => simp [Memory.erase]
  | cons c m ih =>
    by_cases h : c.1 = a
    · rw [show Memory.erase (c :: m) a = Memory.erase m a by simp [Memory.erase, h], ih, Memory.read_cons]
      by_cases hb : b = a <;> simp [hb, h, eq_comm]
      intro h'; exact absurd h'.symm hb
    · rw [show Memory.erase (c :: m) a = c :: Memory.erase m a by simp [Memory.erase, h], Memory.read_cons, ih,
        Memory.read_cons]
      by_cases hb : b = a
      · subst hb; simp [h]
      · simp [hb]

/-- Placing a cell for a byte that has none: that byte reads as the cell, every other as before. -/
theorem Memory.read_place (m : Memory) (a b : Nat) (v : Byte) (h : ∀ c ∈ m, c.1 ≠ a) :
    (Memory.place a v m).read b = if b = a then v else m.read b := by
  induction m with
  | nil => simp [Memory.place, Memory.read, eq_comm]
  | cons c m ih =>
    obtain ⟨k, x⟩ := c
    have hk : k ≠ a := h (k, x) (by simp)
    have hm := ih fun c hc => h c (by simp [hc])
    unfold Memory.place
    split
    · simp only [Memory.read_cons]
      by_cases hb : b = a
      · subst hb; simp
      · simp [hb, Ne.symm hb]
    · simp only [Memory.read_cons, hm]
      by_cases hb : b = a
      · subst hb; simp [hk]
      · simp [hb]

theorem Memory.erase_ne (m : Memory) (a : Nat) : ∀ c ∈ m.erase a, c.1 ≠ a := by
  intro c hc
  simpa [Memory.erase] using (List.mem_filter.1 hc).2

/-- A read after a write: the written byte reads as written, every other byte as before. -/
theorem Memory.read_write (m : Memory) (a b : Nat) (v : Byte) :
    (m.write a v).read b = if b = a then v else m.read b := by
  unfold Memory.write
  split
  · next h => rw [Memory.read_erase, h]
  · rw [Memory.read_place _ _ _ _ (Memory.erase_ne m a), Memory.read_erase]
    by_cases hb : b = a <;> simp [hb]

@[simp] theorem Memory.read_write_same (m : Memory) (a : Nat) (v : Byte) : (m.write a v).read a = v := by
  simp [Memory.read_write]

theorem Memory.read_write_ne (m : Memory) {a b : Nat} (v : Byte) (h : b ≠ a) : (m.write a v).read b = m.read b := by
  simp [Memory.read_write, h]

/-! ### The canonical form -/

theorem Memory.wf_nil : Memory.wf [] := by simp [Memory.wf]

theorem Memory.wf_erase {m : Memory} (h : m.wf) (a : Nat) : (m.erase a).wf :=
  ⟨h.1.sublist List.filter_sublist, fun c hc => h.2 c (List.mem_filter.1 hc).1⟩

theorem Memory.mem_place {m : Memory} {a : Nat} {v : Byte} {c : Host.Cell} :
    c ∈ Memory.place a v m ↔ c = (a, v) ∨ c ∈ m := by
  induction m with
  | nil => simp [Memory.place]
  | cons d m ih =>
    obtain ⟨k, x⟩ := d
    unfold Memory.place
    split
    · simp
    · simp [ih, or_left_comm]

theorem Memory.wf_place {m : Memory} (h : m.wf) {a : Nat} {v : Byte} (ha : a < Config.msgBytes) (hv : v ≠ 0)
    (hne : ∀ c ∈ m, c.1 ≠ a) : (Memory.place a v m).wf := by
  refine ⟨?_, fun c hc => ?_⟩
  · obtain ⟨hp, -⟩ := h
    induction m with
    | nil => simp [Memory.place]
    | cons d m ih =>
      obtain ⟨k, x⟩ := d
      have hk : k ≠ a := hne (k, x) (by simp)
      obtain ⟨hd, hm⟩ := List.pairwise_cons.1 hp
      unfold Memory.place
      split
      · next hlt =>
        refine List.pairwise_cons.2 ⟨fun c hc => ?_, hp⟩
        rcases List.mem_cons.1 hc with rfl | hc
        · exact hlt
        · exact Nat.lt_trans hlt (hd c hc)
      · next hlt =>
        refine List.pairwise_cons.2 ⟨fun c hc => ?_, ih (fun c hc => hne c (by simp [hc])) hm⟩
        rcases Memory.mem_place.1 hc with rfl | hc
        · exact lt_of_le_of_ne (Nat.le_of_not_lt hlt) hk
        · exact hd c hc
  · rcases Memory.mem_place.1 hc with rfl | hc
    · exact ⟨ha, hv⟩
    · exact h.2 c hc

/-- A write to a byte of the buffer keeps the canonical form. -/
theorem Memory.wf_write {m : Memory} (h : m.wf) {a : Nat} (v : Byte) (ha : a < Config.msgBytes) : (m.write a v).wf := by
  unfold Memory.write
  split
  · exact Memory.wf_erase h a
  · next hv => exact Memory.wf_place (Memory.wf_erase h a) ha hv (Memory.erase_ne m a)

/-- A byte below every listed index is not listed. -/
theorem Memory.read_eq_zero_of_lt {m : Memory} {a : Nat} (h : ∀ c ∈ m, a < c.1) : m.read a = 0 := by
  induction m with
  | nil => rfl
  | cons c m ih =>
    have hc := h c (by simp)
    rw [Memory.read_cons, if_neg (by omega), ih fun d hd => h d (by simp [hd])]

/-- Canonical contents with equal bytes are equal data. -/
theorem Memory.ext_of_read {m m' : Memory} (h : m.wf) (h' : m'.wf) (hr : ∀ a, m.read a = m'.read a) : m = m' := by
  induction m generalizing m' with
  | nil =>
    cases m' with
    | nil => rfl
    | cons c m' =>
      have := hr c.1
      simp [Memory.read_cons] at this
      exact absurd this.symm (h'.2 c (by simp)).2
  | cons c m ih =>
    cases m' with
    | nil =>
      have := hr c.1
      simp [Memory.read_cons] at this
      exact absurd this (h.2 c (by simp)).2
    | cons c' m' =>
      obtain ⟨hp, hb⟩ := h
      obtain ⟨hp', hb'⟩ := h'
      obtain ⟨hd, hm⟩ := List.pairwise_cons.1 hp
      obtain ⟨hd', hm'⟩ := List.pairwise_cons.1 hp'
      have hkey : c.1 = c'.1 := by
        rcases Nat.lt_trichotomy c.1 c'.1 with hlt | heq | hgt
        · have := hr c.1
          rw [Memory.read_cons, if_pos rfl, Memory.read_cons, if_neg (by omega),
            Memory.read_eq_zero_of_lt fun d hdm => Nat.lt_trans hlt (hd' d hdm)] at this
          exact absurd this (hb c (by simp)).2
        · exact heq
        · have := hr c'.1
          rw [Memory.read_cons, if_neg (by omega), Memory.read_cons, if_pos rfl,
            Memory.read_eq_zero_of_lt fun d hdm => Nat.lt_trans hgt (hd d hdm)] at this
          exact absurd this.symm (hb' c' (by simp)).2
      have hval : c.2 = c'.2 := by
        have := hr c.1
        rwa [Memory.read_cons, if_pos rfl, Memory.read_cons, if_pos hkey.symm] at this
      have htail : m = m' := by
        refine ih ⟨hm, fun d hdm => hb d (by simp [hdm])⟩ ⟨hm', fun d hdm => hb' d (by simp [hdm])⟩ fun a => ?_
        by_cases ha : c.1 = a
        · subst ha
          rw [Memory.read_eq_zero_of_lt hd, Memory.read_eq_zero_of_lt (hkey ▸ hd')]
        · have := hr a
          rwa [Memory.read_cons, if_neg ha, Memory.read_cons, if_neg (hkey ▸ ha)] at this
      rw [htail, Prod.ext hkey hval]

/-! ### Byte ranges -/

theorem Memory.readBE_lt (m : Memory) (addr n : Nat) : m.readBE addr n < 256 ^ n := by
  induction n with
  | zero => simp [Memory.readBE]
  | succ n ih =>
    have := (m.read (addr + n)).isLt
    rw [Memory.readBE, pow_succ]
    omega

/-- A byte outside the range written reads as before. -/
theorem Memory.read_writeBE_outside (m : Memory) (addr n v a : Nat) (h : a < addr ∨ addr + n ≤ a) :
    (m.writeBE addr n v).read a = m.read a := by
  induction n generalizing v with
  | zero => rfl
  | succ n ih => rw [Memory.writeBE, Memory.read_write_ne _ _ (by omega), ih _ (by omega)]

/-- A byte inside the range written reads as its byte of the value. -/
theorem Memory.read_writeBE_inside (m : Memory) (addr n v j : Nat) (h : j < n) :
    (m.writeBE addr n v).read (addr + j) = BitVec.ofNat 8 (v / 256 ^ (n - 1 - j)) := by
  induction n generalizing v with
  | zero => omega
  | succ n ih =>
    rw [Memory.writeBE]
    by_cases hj : j = n
    · subst hj; simp
    · rw [Memory.read_write_ne _ _ (by omega), ih _ (by omega), Nat.div_div_eq_div_mul, ← pow_succ',
        show n - 1 - j + 1 = n + 1 - 1 - j by omega]

/-- Contents that agree on a range give the same big-endian integer. -/
theorem Memory.readBE_congr {m m' : Memory} {addr n : Nat} (h : ∀ j, j < n → m.read (addr + j) = m'.read (addr + j)) :
    m.readBE addr n = m'.readBE addr n := by
  induction n with
  | zero => rfl
  | succ n ih => rw [Memory.readBE, Memory.readBE, ih fun j hj => h j (by omega), h n (by omega)]

/-- What was written is read back. -/
theorem Memory.readBE_writeBE (m : Memory) (addr n v : Nat) (hv : v < 256 ^ n) :
    (m.writeBE addr n v).readBE addr n = v := by
  induction n generalizing v with
  | zero => simp at hv; simp [Memory.readBE, hv]
  | succ n ih =>
    rw [pow_succ] at hv
    rw [Memory.readBE, Memory.writeBE, Memory.read_write_same,
      Memory.readBE_congr (m' := m.writeBE addr n (v / 256)) fun j hj => Memory.read_write_ne _ _ (by omega),
      ih _ (by omega)]
    simp; omega

/-- Writing a range inside the buffer keeps the canonical form. -/
theorem Memory.wf_writeBE {m : Memory} (h : m.wf) (addr n v : Nat) (hn : addr + n ≤ Config.msgBytes) :
    (m.writeBE addr n v).wf := by
  induction n generalizing v with
  | zero => exact h
  | succ n ih => exact Memory.wf_write (ih _ (by omega)) _ (by omega)

/-- The bytes of a loaded message. -/
theorem Memory.read_ofMessage (x : MsgWord) (n a : Nat) :
    (Memory.ofMessage x n).read a = if a < n then messageByte x a else 0 := by
  induction n with
  | zero => simp [Memory.ofMessage]
  | succ n ih =>
    rw [Memory.ofMessage, Memory.read_write, ih]
    by_cases ha : a = n
    · subst ha; simp
    · simp [ha, show a < n + 1 ↔ a < n by omega]

/-- A loaded message is in canonical form. -/
theorem Memory.wf_ofMessage (x : MsgWord) (n : Nat) (hn : n ≤ Config.msgBytes) : (Memory.ofMessage x n).wf := by
  induction n with
  | zero => exact Memory.wf_nil
  | succ n ih => exact Memory.wf_write (ih (by omega)) _ (by omega)

/-- The reset state's buffer is in canonical form. -/
theorem State.reset_buf_wf : State.reset.buf.wf := Memory.wf_nil

end Sys2Proof.Machine
end

