-- ==== Sys2Proof/Laws/State.lean ====
section
/-! SUPPORT. The fields of State after each named update: one lemma per field per update, true by unfolding, so that no proof
unfolds a record update again. -/

namespace Sys2Proof.Machine

@[simp] theorem State.attachTag_buf (s : State) (x : Data) : (s.attachTag x).buf = s.buf := rfl
@[simp] theorem State.attachTag_tag (s : State) (x : Data) : (s.attachTag x).tag = x := rfl
@[simp] theorem State.attachTag_tagValid (s : State) (x : Data) : (s.attachTag x).tagValid = true := rfl
@[simp] theorem State.attachTag_fault (s : State) (x : Data) : (s.attachTag x).fault = s.fault := rfl
@[simp] theorem State.attachTag_rsp (s : State) (x : Data) : (s.attachTag x).rsp = s.rsp := rfl
@[simp] theorem State.attachTag_msgIn (s : State) (x : Data) : (s.attachTag x).msgIn = s.msgIn := rfl
@[simp] theorem State.attachTag_inputs (s : State) (x : Data) : (s.attachTag x).inputs = s.inputs := rfl

@[simp] theorem State.dropTag_buf (s : State) : s.dropTag.buf = s.buf := rfl
@[simp] theorem State.dropTag_tag (s : State) : s.dropTag.tag = 0 := rfl
@[simp] theorem State.dropTag_tagValid (s : State) : s.dropTag.tagValid = false := rfl
@[simp] theorem State.dropTag_fault (s : State) : s.dropTag.fault = s.fault := rfl
@[simp] theorem State.dropTag_rsp (s : State) : s.dropTag.rsp = s.rsp := rfl
@[simp] theorem State.dropTag_msgIn (s : State) : s.dropTag.msgIn = s.msgIn := rfl
@[simp] theorem State.dropTag_inputs (s : State) : s.dropTag.inputs = s.inputs := rfl

@[simp] theorem assertReset_buf (s : State) : (assertReset s).buf = [] := rfl
@[simp] theorem assertReset_tag (s : State) : (assertReset s).tag = 0 := rfl
@[simp] theorem assertReset_tagValid (s : State) : (assertReset s).tagValid = false := rfl
@[simp] theorem assertReset_fault (s : State) : (assertReset s).fault = 0 := rfl
@[simp] theorem assertReset_rsp (s : State) : (assertReset s).rsp = s.rsp := rfl
@[simp] theorem assertReset_msgIn (s : State) : (assertReset s).msgIn = s.msgIn := rfl
@[simp] theorem assertReset_inputs (s : State) : (assertReset s).inputs = s.inputs := rfl

@[simp] theorem present_buf (s : State) (m : MsgWord) : (present s m).buf = s.buf := rfl
@[simp] theorem present_tag (s : State) (m : MsgWord) : (present s m).tag = s.tag := rfl
@[simp] theorem present_tagValid (s : State) (m : MsgWord) : (present s m).tagValid = s.tagValid := rfl
@[simp] theorem present_fault (s : State) (m : MsgWord) : (present s m).fault = s.fault := rfl
@[simp] theorem present_rsp (s : State) (m : MsgWord) : (present s m).rsp = s.rsp := rfl
@[simp] theorem present_msgIn (s : State) (m : MsgWord) : (present s m).msgIn = m := rfl
@[simp] theorem present_inputs (s : State) (m : MsgWord) : (present s m).inputs = s.inputs := rfl

@[simp] theorem State.pushMove_buf (s : State) (h : HostMove) : (s.pushMove h).buf = s.buf := rfl
@[simp] theorem State.pushMove_tag (s : State) (h : HostMove) : (s.pushMove h).tag = s.tag := rfl
@[simp] theorem State.pushMove_tagValid (s : State) (h : HostMove) : (s.pushMove h).tagValid = s.tagValid := rfl
@[simp] theorem State.pushMove_fault (s : State) (h : HostMove) : (s.pushMove h).fault = s.fault := rfl
@[simp] theorem State.pushMove_rsp (s : State) (h : HostMove) : (s.pushMove h).rsp = s.rsp := rfl
@[simp] theorem State.pushMove_msgIn (s : State) (h : HostMove) : (s.pushMove h).msgIn = s.msgIn := rfl
@[simp] theorem State.pushMove_inputs (s : State) (h : HostMove) : (s.pushMove h).inputs = h :: s.inputs := rfl

/-- The halted predicate in terms of FAULT (10_state.md R23). -/
@[simp] theorem State.halted_eq_true (s : State) : s.halted = true ↔ s.fault ≠ 0 := by
  simp [State.halted]

@[simp] theorem State.halted_eq_false (s : State) : s.halted = false ↔ s.fault = 0 := by
  simp [State.halted]

end Sys2Proof.Machine
end

