-- ==== Sys2Proof/Laws/Ops.lean ====
section
/-! SUPPORT. One lemma per shared operation that says everything it can do: the halted gate, an answer, fault entry, an illegal
word, and the buffer accesses. Proofs about commands cite these. -/

namespace Sys2Proof.Machine

/-- A running block passes the gate. -/
theorem unlessHalted_of_running {s : State} (h : s.fault = 0) (r : Host.Outcome State Fault Refusal) :
    unlessHalted s r = r := by
  simp [unlessHalted, State.halted, h]

/-- A halted block answers Halted (60_exceptions.md R223). -/
theorem unlessHalted_of_halted {s : State} (h : s.fault ≠ 0) (r : Host.Outcome State Fault Refusal) :
    unlessHalted s r = .next { s with rsp := some ⟨6, 0⟩ } := by
  rw [unlessHalted, if_pos ((State.halted_eq_true s).2 h)]
  rfl

/-- What the gate can answer. -/
theorem unlessHalted_eq_next {s t : State} {r : Host.Outcome State Fault Refusal} (h : unlessHalted s r = .next t) :
    (s.fault ≠ 0 ∧ t = { s with rsp := some ⟨6, 0⟩ }) ∨ (s.fault = 0 ∧ r = .next t) := by
  by_cases hs : s.fault = 0
  · exact .inr ⟨hs, by rwa [unlessHalted_of_running hs] at h⟩
  · rw [unlessHalted_of_halted hs] at h
    exact .inl ⟨hs, (Host.Outcome.next.inj h).symm⟩

/-- An answer changes the `rsp` port only. -/
theorem respondOk_eq (s : State) (d : Data) : respondOk s d = .next { s with rsp := some ⟨0, d⟩ } := rfl

/-- Fault entry (60_exceptions.md R222). -/
theorem raise_eq (c : BitVec 4) (s : State) : raise c s = .next { s with fault := c, rsp := some ⟨c, 0⟩ } := rfl

/-- An illegal word raises IllegalCommand in a running block and is answered Halted in a halted one. -/
theorem illegalWord_eq (s : State) :
    illegalWord s =
      if s.fault = 0 then .next { s with fault := 4, rsp := some ⟨4, 0⟩ } else .next { s with rsp := some ⟨6, 0⟩ } := by
  split
  · next h => exact unlessHalted_of_running h _
  · next h => exact unlessHalted_of_halted h _

/-- A read inside the buffer. -/
theorem bufRead_inside (s : State) {addr n : Nat} (h1 : 1 ≤ n) (h2 : addr + n ≤ 48) :
    bufRead s addr n = some (s.buf.readBE addr n) := by
  simp [bufRead, Config.msgBytes, h1, h2]

/-- A write inside the buffer, of a value that fits. -/
theorem bufWrite_inside (s : State) {addr n v : Nat} (h1 : 1 ≤ n) (h2 : addr + n ≤ 48) (hv : v < 256 ^ n) :
    bufWrite s addr n v = some { s with buf := s.buf.writeBE addr n v } := by
  simp [bufWrite, Config.msgBytes, h1, h2, hv]

/-- Everything a buffer write can answer. -/
theorem bufWrite_eq_some {s t : State} {addr n v : Nat} (h : bufWrite s addr n v = some t) :
    1 ≤ n ∧ addr + n ≤ 48 ∧ v < 256 ^ n ∧ t = { s with buf := s.buf.writeBE addr n v } := by
  unfold bufWrite at h
  split at h
  · next hc => exact ⟨hc.1, hc.2.1, hc.2.2, (Option.some.inj h).symm⟩
  · cases h

/-- MSGINT fits `msg_out`. -/
theorem State.msgInt_lt (s : State) : s.msgInt < 2 ^ 384 := by
  have := Memory.readBE_lt s.buf 0 48
  rwa [show (256 : ℕ) = 2 ^ 8 by norm_num, ← pow_mul] at this

/-- `msg_out` as an integer is MSGINT (20_memory.md R54). -/
theorem State.msgOut_toNat (s : State) : s.msgOut.toNat = s.msgInt := by
  rw [State.msgOut, BitVec.toNat_ofNat, Nat.mod_eq_of_lt s.msgInt_lt]

end Sys2Proof.Machine
end

