-- ==== Sys2Proof/Laws/Bits.lean ====
section
/-! SUPPORT. The bits of a big-endian range of bytes and of the whole message: where a byte's bit stands in the integer, and what
replacing a slice of an integer does to each bit (20_memory.md R51, R52; 40_codec_ops.md R119). -/

namespace Sys2Proof.Machine

/-- A range of bytes is its first part followed by the rest. -/
theorem Memory.readBE_add (m : Memory) (a n k : Nat) :
    m.readBE a (n + k) = m.readBE a n * 256 ^ k + m.readBE (a + n) k := by
  induction k with
  | zero => simp [Memory.readBE]
  | succ k ih => rw [← Nat.add_assoc, Memory.readBE, ih, Memory.readBE, pow_succ, Nat.add_assoc a n k]; ring

/-- Bit `k` of byte `j` of a range of `n` bytes is bit `8 * (n - 1 - j) + k` of its integer. -/
theorem Memory.readBE_testBit (m : Memory) (a n j k : Nat) (hj : j < n) (hk : k < 8) :
    (m.readBE a n).testBit (8 * (n - 1 - j) + k) = (m.read (a + j)).getLsbD k := by
  have e : m.readBE a n =
      (m.readBE a j * 256 + (m.read (a + j)).toNat) * 256 ^ (n - 1 - j) + m.readBE (a + (j + 1)) (n - 1 - j) := by
    have := m.readBE_add a (j + 1) (n - 1 - j)
    rwa [show j + 1 + (n - 1 - j) = n by omega, Memory.readBE] at this
  have hlt := Memory.readBE_lt m (a + (j + 1)) (n - 1 - j)
  rw [show (256 : ℕ) = 2 ^ 8 by norm_num, ← pow_mul] at hlt e
  rw [e, Nat.mul_comm, Nat.testBit_two_pow_mul_add _ hlt, if_neg (by omega), Nat.add_sub_cancel_left, Nat.mul_comm,
    Nat.testBit_two_pow_mul_add _ (by exact (m.read (a + j)).isLt), if_pos hk]
  rfl

/-- Wire bit `b` is bit `383 - b` of MSGINT. -/
theorem State.wireBit_eq (s : State) (b : Nat) (hb : b < 384) : s.wireBit b = s.msgInt.testBit (383 - b) := by
  have := s.buf.readBE_testBit 0 48 (b / 8) (7 - b % 8) (by omega) (by omega)
  rw [State.wireBit, State.msgInt, Config.msgBytes, show 383 - b = 8 * (48 - 1 - b / 8) + (7 - b % 8) by omega, this,
    Nat.zero_add]

/-- Replacing the `l` bits from bit `p` on changes those bits only. -/
theorem testBit_replace_slice (M p l v k : Nat) (hv : v < 2 ^ l) :
    (M - (M / 2 ^ p % 2 ^ l) * 2 ^ p + v * 2 ^ p).testBit k =
      if p ≤ k ∧ k < p + l then v.testBit (k - p) else M.testBit k := by
  have e : M = (M / 2 ^ (p + l) * 2 ^ l + M / 2 ^ p % 2 ^ l) * 2 ^ p + M % 2 ^ p := by
    have e := Nat.div_add_mod' M (2 ^ p)
    have e2 := Nat.div_add_mod' (M / 2 ^ p) (2 ^ l)
    rw [Nat.div_div_eq_div_mul, ← pow_add] at e2
    rw [e2]; exact e.symm
  have hL : M % 2 ^ p < 2 ^ p := Nat.mod_lt _ (by positivity)
  have hx : M / 2 ^ p % 2 ^ l < 2 ^ l := Nat.mod_lt _ (by positivity)
  have e4 : M - (M / 2 ^ p % 2 ^ l) * 2 ^ p + v * 2 ^ p = (M / 2 ^ (p + l) * 2 ^ l + v) * 2 ^ p + M % 2 ^ p := by
    generalize M / 2 ^ p % 2 ^ l = x at *
    generalize M / 2 ^ (p + l) = H at *
    generalize M % 2 ^ p = L at *
    rw [e, show (H * 2 ^ l + x) * 2 ^ p + L = x * 2 ^ p + (H * 2 ^ l * 2 ^ p + L) by ring, Nat.add_sub_cancel_left]
    ring
  rw [e4]
  conv_rhs => rw [e]
  rw [Nat.mul_comm _ (2 ^ p), Nat.mul_comm _ (2 ^ p), Nat.testBit_two_pow_mul_add _ hL, Nat.testBit_two_pow_mul_add _ hL,
    Nat.mul_comm _ (2 ^ l), Nat.testBit_two_pow_mul_add _ hv, Nat.testBit_two_pow_mul_add _ hx]
  by_cases h1 : k < p
  · simp [h1, show ¬ p ≤ k by omega]
  · by_cases h2 : k < p + l
    · simp [h1, h2, show k - p < l by omega, show p ≤ k by omega]
    · simp [h1, h2, show ¬ k - p < l by omega]

end Sys2Proof.Machine
end

