-- ==== Sys2Proof/Laws/Encoding.lean ====
section
/-! SUPPORT. The fields of a command word: each is what `commandWord` put there, and a word with `rsv = 0` is made of its fields
(30_encoding.md R82). -/

namespace Sys2Proof

/-- The bits of a command word, field by field. -/
theorem getLsbD_commandWord (op : BitVec 4) (sel : Sel) (d : Data) (i : Nat) :
    (commandWord op sel d).getLsbD i =
      if i < 64 then d.getLsbD i else if i < 72 then sel.getLsbD (i - 64) else if i < 76 then false
      else op.getLsbD (i - 76) := by
  show BitVec.getLsbD (w := 4 + 4 + 8 + 64) (op ++ (0 : BitVec 4) ++ sel ++ d) i = _
  rw [BitVec.getLsbD_append, BitVec.getLsbD_append, BitVec.getLsbD_append]
  by_cases h1 : i < 64
  · simp [h1]
  · by_cases h2 : i < 72
    · simp [h1, h2, show i - 64 < 8 by omega]
    · by_cases h3 : i < 76
      · simp [h1, h2, h3, show ¬ i - 64 < 8 by omega, show i - 64 - 8 < 4 by omega]
      · simp [h1, h2, h3, show ¬ i - 64 < 8 by omega, show ¬ i - 64 - 8 < 4 by omega,
          show i - 64 - 8 - 4 = i - 76 by omega]

@[simp] theorem wordOp_commandWord (op : BitVec 4) (sel : Sel) (d : Data) : wordOp (commandWord op sel d) = op := by
  refine BitVec.eq_of_getLsbD_eq fun i hi => ?_
  rw [wordOp, BitVec.getLsbD_extractLsb', getLsbD_commandWord]
  simp [hi, show ¬ 76 + i < 64 by omega, show ¬ 76 + i < 72 by omega]

@[simp] theorem wordRsv_commandWord (op : BitVec 4) (sel : Sel) (d : Data) : wordRsv (commandWord op sel d) = 0 := by
  refine BitVec.eq_of_getLsbD_eq fun i hi => ?_
  rw [wordRsv, BitVec.getLsbD_extractLsb', getLsbD_commandWord]
  simp [show 72 + i < 76 by omega, show ¬ 72 + i < 64 by omega]

@[simp] theorem wordSel_commandWord (op : BitVec 4) (sel : Sel) (d : Data) : wordSel (commandWord op sel d) = sel := by
  refine BitVec.eq_of_getLsbD_eq fun i hi => ?_
  rw [wordSel, BitVec.getLsbD_extractLsb', getLsbD_commandWord]
  simp [hi, show 64 + i < 72 by omega]

@[simp] theorem wordData_commandWord (op : BitVec 4) (sel : Sel) (d : Data) : wordData (commandWord op sel d) = d := by
  refine BitVec.eq_of_getLsbD_eq fun i hi => ?_
  rw [wordData, BitVec.getLsbD_extractLsb', getLsbD_commandWord]
  simp [hi]

/-- A word with `rsv = 0` is the word of its own fields. -/
theorem commandWord_of_fields {w : CmdWord} (h : wordRsv w = 0) :
    commandWord (wordOp w) (wordSel w) (wordData w) = w := by
  refine BitVec.eq_of_getLsbD_eq fun i hi => ?_
  rw [getLsbD_commandWord]
  by_cases h1 : i < 64
  · simp [h1, wordData]
  · by_cases h2 : i < 72
    · simp [h1, h2, wordSel, show i - 64 < 8 by omega, show 64 + (i - 64) = i by omega]
    · by_cases h3 : i < 76
      · have := congrArg (fun r => BitVec.getLsbD r (i - 72)) h
        simp only [wordRsv, BitVec.getLsbD_extractLsb', show i - 72 < 4 by omega, show 72 + (i - 72) = i by omega] at this
        simpa [h1, h2, h3] using this.symm
      · simp [h1, h2, h3, wordOp, show i - 76 < 4 by omega, show 76 + (i - 76) = i by omega]

end Sys2Proof
end

