-- ==== Sys2Proof/Laws/Fields.lean ====
section
/-! SUPPORT. Field accesses at any bit offset and length inside the message: the geometry's arithmetic, what a read extracts and a
write inserts, and that both are defined. -/

namespace Sys2Proof.Machine

/-- Every standard field lies inside the message and has 1 to 64 bits (10_state.md R26). -/
theorem fieldAt_bounds {sel : Sel} {f : MessageField} (h : fieldAt sel = some f) :
    1 ≤ f.len ∧ f.len ≤ 64 ∧ f.off + f.len ≤ 384 := by
  have hall : ∀ f ∈ Config.fieldTable, 1 ≤ f.len ∧ f.len ≤ 64 ∧ f.off + f.len ≤ 384 := by decide
  exact hall f (List.mem_of_getElem? h)

/-- A selector names a field exactly below NFIELDS. -/
theorem fieldAt_eq_none {sel : Sel} : fieldAt sel = none ↔ 13 ≤ sel.toNat := by
  rw [fieldAt, List.getElem?_eq_none_iff]; rfl

/-- The touched bytes lie inside the buffer and hold `lead + l + trail` bits (40_codec_ops.md R110). -/
theorem geom_inside {o l : Nat} (hl : 1 ≤ l) (ho : o + l ≤ 384) :
    1 ≤ geomBytes o l ∧ geomStart o + geomBytes o l ≤ 48 ∧ 8 * geomBytes o l = geomLead o + l + geomTrail o l := by
  unfold geomBytes geomStart geomStop geomLead geomTrail geomStop
  omega

/-- What a field read extracts: `l` bits above the `trail` low ones. -/
theorem extractField_eq {W n lead l trail : Nat} (h : 8 * n = lead + l + trail) :
    extractField W n lead trail = W / 2 ^ trail % 2 ^ l := by
  rw [extractField, show 8 * n - lead = trail + l by omega, pow_add, Nat.mod_mul_right_div_self]

/-- What a field write inserts: the high part kept, the value, the low part kept. -/
theorem insertField_eq {W n lead l trail v : Nat} (h : 8 * n = lead + l + trail) :
    insertField W n lead trail v = W / 2 ^ (trail + l) * 2 ^ (trail + l) + v * 2 ^ trail + W % 2 ^ trail := by
  rw [insertField, show 8 * n - lead = trail + l by omega]
  have := Nat.div_add_mod' W (2 ^ (trail + l))
  omega

/-- The new word fits the bytes it came from. -/
theorem insertField_lt {W n lead l trail v : Nat} (h : 8 * n = lead + l + trail) (hW : W < 256 ^ n) (hv : v < 2 ^ l) :
    insertField W n lead trail v < 256 ^ n := by
  rw [insertField_eq h]
  have e : 256 ^ n = 2 ^ lead * 2 ^ (trail + l) := by
    rw [← pow_add, show (256 : Nat) = 2 ^ 8 by norm_num, ← pow_mul, h]; congr 1; omega
  rw [e] at hW ⊢
  have h1 : W / 2 ^ (trail + l) + 1 ≤ 2 ^ lead := (Nat.div_lt_iff_lt_mul (by positivity)).2 hW
  have h2 : W % 2 ^ trail < 2 ^ trail := Nat.mod_lt _ (by positivity)
  have h3 : (v + 1) * 2 ^ trail ≤ 2 ^ (trail + l) := by
    rw [pow_add, Nat.mul_comm (2 ^ trail)]; exact Nat.mul_le_mul_right _ hv
  have h4 : (W / 2 ^ (trail + l) + 1) * 2 ^ (trail + l) ≤ 2 ^ lead * 2 ^ (trail + l) := Nat.mul_le_mul_right _ h1
  rw [Nat.add_mul] at h3 h4
  omega

/-- The value is read back from the word it was inserted in. -/
theorem insertField_value {W n lead l trail v : Nat} (h : 8 * n = lead + l + trail) (hv : v < 2 ^ l) :
    insertField W n lead trail v / 2 ^ trail % 2 ^ l = v := by
  have e : insertField W n lead trail v =
      (W / 2 ^ (trail + l) * 2 ^ l + v) * 2 ^ trail + W % 2 ^ trail := by
    rw [insertField_eq h, pow_add]; ring
  rw [e, Nat.add_comm, Nat.add_mul_div_right _ _ (by positivity),
    Nat.div_eq_of_lt (Nat.mod_lt _ (by positivity)), Nat.zero_add, Nat.add_comm, Nat.add_mul_mod_self_right,
    Nat.mod_eq_of_lt hv]

/-- A field read inside the message is defined. -/
theorem fieldRead_eq (s : State) {o l : Nat} (hl : 1 ≤ l) (ho : o + l ≤ 384) :
    fieldRead s o l = some (s.buf.readBE (geomStart o) (geomBytes o l) / 2 ^ geomTrail o l % 2 ^ l) := by
  obtain ⟨h1, h2, h3⟩ := geom_inside hl ho
  rw [fieldRead, bufRead_inside s h1 h2]
  simp only [extractField_eq h3]

/-- A field write of a value that fits is defined, and is one write of the touched bytes. -/
theorem fieldWrite_eq (s : State) {o l v : Nat} (hl : 1 ≤ l) (ho : o + l ≤ 384) (hv : v < 2 ^ l) :
    fieldWrite s o l v = some { s with
      buf := s.buf.writeBE (geomStart o) (geomBytes o l)
        (insertField (s.buf.readBE (geomStart o) (geomBytes o l)) (geomBytes o l) (geomLead o) (geomTrail o l) v) } := by
  obtain ⟨h1, h2, h3⟩ := geom_inside hl ho
  rw [fieldWrite, bufRead_inside s h1 h2]
  exact bufWrite_inside s h1 h2 (insertField_lt h3 (Memory.readBE_lt _ _ _) hv)

/-- Everything a field write can answer. -/
theorem fieldWrite_eq_some {s t : State} {o l v : Nat} (h : fieldWrite s o l v = some t) :
    ∃ w, geomStart o + geomBytes o l ≤ 48 ∧ t = { s with buf := s.buf.writeBE (geomStart o) (geomBytes o l) w } := by
  unfold fieldWrite at h
  split at h
  · cases h
  · obtain ⟨-, h2, -, rfl⟩ := bufWrite_eq_some h
    exact ⟨_, h2, rfl⟩

end Sys2Proof.Machine
end

