-- ==== Sys2Proof/Laws/Exec.lean ====
section
/-! SUPPORT. What a command and a step can answer, said once: a command answers Halted, enters a fault, or answers OK having
changed BUF, TAG and TAG_VALID at most. Invariants of the block follow from these. -/

namespace Sys2Proof.Machine

/-- A command that was performed: only BUF, TAG, TAG_VALID and `rsp` may differ; BUF stays canonical, and a state without a tag
has TAG 0 if the state before had. -/
def Performed (s t : State) : Prop :=
  ∃ b x v d, t = { s with buf := b, tag := x, tagValid := v, rsp := some ⟨0, d⟩ } ∧ (s.buf.wf → b.wf) ∧
    ((s.tagValid = false → s.tag = 0) → v = false → x = 0)

/-- A command that entered a fault (60_exceptions.md R222). -/
def EnteredFault (s t : State) : Prop :=
  s.fault = 0 ∧ ∃ c : BitVec 4, c ≠ 0 ∧ c ≤ 5 ∧ t = { s with fault := c, rsp := some ⟨c, 0⟩ }

/-- A halted block that answered Halted (60_exceptions.md R223). -/
def AnsweredHalted (s t : State) : Prop :=
  s.fault ≠ 0 ∧ t = { s with rsp := some ⟨6, 0⟩ }

/-- An answer OK that changes no register. -/
theorem Performed.of_read (s : State) (d : Data) : Performed s { s with rsp := some ⟨0, d⟩ } :=
  ⟨s.buf, s.tag, s.tagValid, d, rfl, id, fun h => h⟩

theorem EnteredFault.of_raise {s t : State} {c : BitVec 4} (hs : s.fault = 0) (h0 : c ≠ 0) (h5 : c ≤ 5)
    (h : raise c s = .next t) : EnteredFault s t :=
  ⟨hs, c, h0, h5, (Host.Outcome.next.inj h).symm⟩

/-- The gate around a command: it is enough to know what a running block does. -/
theorem gate_cases {s t : State} {r : Host.Outcome State Fault Refusal} (h : unlessHalted s r = .next t)
    (hr : s.fault = 0 → r = .next t → EnteredFault s t ∨ Performed s t) :
    AnsweredHalted s t ∨ EnteredFault s t ∨ Performed s t := by
  rcases unlessHalted_eq_next h with ⟨h0, rfl⟩ | ⟨h0, h⟩
  · exact .inl ⟨h0, rfl⟩
  · exact .inr (hr h0 h)

theorem execGetf_cases {sel : Sel} {s t : State} (h : execGetf sel s = .next t) :
    AnsweredHalted s t ∨ EnteredFault s t ∨ Performed s t := by
  refine gate_cases h fun hs h => ?_
  split at h
  · exact .inl (.of_raise hs (by decide) (by decide) h)
  · split at h
    · cases h
    · cases h; exact .inr (.of_read s _)

theorem execSetf_cases {sel : Sel} {w : Data} {s t : State} (h : execSetf sel w s = .next t) :
    AnsweredHalted s t ∨ EnteredFault s t ∨ Performed s t := by
  refine gate_cases h fun hs h => ?_
  split at h
  · exact .inl (.of_raise hs (by decide) (by decide) h)
  · split at h
    · exact .inl (.of_raise hs (by decide) (by decide) h)
    · split at h
      · cases h
      · next hw =>
        obtain ⟨v, hb, rfl⟩ := fieldWrite_eq_some hw
        cases h
        exact .inr ⟨_, _, _, _, rfl, fun hwf => Memory.wf_writeBE hwf _ _ _ hb, fun h => h⟩

theorem execGetb_cases {sel : Sel} {s t : State} (h : execGetb sel s = .next t) :
    AnsweredHalted s t ∨ EnteredFault s t ∨ Performed s t := by
  refine gate_cases h fun hs h => ?_
  split at h
  · exact .inl (.of_raise hs (by decide) (by decide) h)
  · split at h
    · cases h
    · cases h; exact .inr (.of_read s _)

theorem execSetb_cases {sel : Sel} {w : Data} {s t : State} (h : execSetb sel w s = .next t) :
    AnsweredHalted s t ∨ EnteredFault s t ∨ Performed s t := by
  refine gate_cases h fun hs h => ?_
  split at h
  · exact .inl (.of_raise hs (by decide) (by decide) h)
  · split at h
    · exact .inl (.of_raise hs (by decide) (by decide) h)
    · split at h
      · cases h
      · next hw =>
        obtain ⟨-, hb, -, rfl⟩ := bufWrite_eq_some hw
        cases h
        exact .inr ⟨_, _, _, _, rfl, fun hwf => Memory.wf_writeBE hwf _ _ _ hb, fun h => h⟩

theorem execMclr_cases {s t : State} (h : execMclr s = .next t) :
    AnsweredHalted s t ∨ EnteredFault s t ∨ Performed s t := by
  refine gate_cases h fun _ h => ?_
  cases h
  exact .inr ⟨[], 0, false, 0, rfl, fun _ => Memory.wf_nil, fun _ _ => rfl⟩

theorem execMload_cases {x : Data} {s t : State} (h : execMload x s = .next t) :
    AnsweredHalted s t ∨ EnteredFault s t ∨ Performed s t := by
  refine gate_cases h fun _ h => ?_
  cases h
  exact .inr ⟨_, x, true, 0, rfl, fun _ => Memory.wf_ofMessage _ _ le_rfl, nofun⟩

theorem execTagset_cases {x : Data} {s t : State} (h : execTagset x s = .next t) :
    AnsweredHalted s t ∨ EnteredFault s t ∨ Performed s t := by
  refine gate_cases h fun _ h => ?_
  cases h
  exact .inr ⟨s.buf, x, true, 0, rfl, id, nofun⟩

theorem execTagget_cases {s t : State} (h : execTagget s = .next t) :
    AnsweredHalted s t ∨ EnteredFault s t ∨ Performed s t := by
  refine gate_cases h fun _ h => ?_
  cases h; exact .inr (.of_read s _)

theorem execP2n_cases {w : Data} {s t : State} (h : execP2n w s = .next t) :
    AnsweredHalted s t ∨ EnteredFault s t ∨ Performed s t := by
  refine gate_cases h fun hs h => ?_
  split at h
  · exact .inl (.of_raise hs (by decide) (by decide) h)
  · cases h; exact .inr (.of_read s _)

theorem execN2p_cases {w : Data} {s t : State} (h : execN2p w s = .next t) :
    AnsweredHalted s t ∨ EnteredFault s t ∨ Performed s t := by
  refine gate_cases h fun _ h => ?_
  split at h
  · cases h
  · cases h; exact .inr (.of_read s _)

theorem execRdstat_cases {s t : State} (h : execRdstat s = .next t) :
    AnsweredHalted s t ∨ EnteredFault s t ∨ Performed s t := by
  cases h; exact .inr (.inr (.of_read s _))

/-- Everything a command can answer with a next state. -/
theorem exec_cases {i : Instr} {s t : State} (h : exec i s = .next t) :
    AnsweredHalted s t ∨ EnteredFault s t ∨ Performed s t := by
  cases i with
  | getf sel => exact execGetf_cases h
  | setf sel w => exact execSetf_cases h
  | getb sel => exact execGetb_cases h
  | setb sel w => exact execSetb_cases h
  | mclr => exact execMclr_cases h
  | mload x => exact execMload_cases h
  | tagset x => exact execTagset_cases h
  | tagget => exact execTagget_cases h
  | p2n w => exact execP2n_cases h
  | n2p w => exact execN2p_cases h
  | rdstat => exact execRdstat_cases h

/-- Everything a step can answer with a next state: idle, a reset, a command performed, or an illegal word. -/
theorem step_cases {s t : State} (h : step s = .next t) :
    (s.inputs = [] ∧ t = s) ∨
    (∃ rest, s.inputs = .reset :: rest ∧ t = assertReset { s with inputs := rest }) ∨
    (∃ w m rest i, s.inputs = .command w m :: rest ∧ decode w = .ok i ∧
      exec i (present { s with inputs := rest } m) = .next t) ∨
    (∃ w m rest e, s.inputs = .command w m :: rest ∧ decode w = .error e ∧
      illegalWord (present { s with inputs := rest } m) = .next t) := by
  unfold step at h
  split at h
  · next hi => exact .inl ⟨hi, (Host.Outcome.next.inj h).symm⟩
  · next rest hi => exact .inr (.inl ⟨rest, hi, (Host.Outcome.next.inj h).symm⟩)
  · next w m rest hi =>
    split at h
    · next i hd => exact .inr (.inr (.inl ⟨w, m, rest, i, hi, hd, h⟩))
    · next e hd => exact .inr (.inr (.inr ⟨w, m, rest, e, hi, hd, h⟩))

end Sys2Proof.Machine
end

