-- ==== Sys2Proof/Laws/PerInstr.lean ====
section
/-! SUPPORT. One lemma per constructor of `Instr`: the word of a command is a word of its row of opcode_table.json
(30_encoding.md R84, R86). -/

namespace Sys2Proof.Laws.TableRow

/-- The encoded command matches the row that carries its mnemonic. -/
def Statement (i : Instr) : Prop :=
  ∃ r ∈ opcodeRows, r.mnemonic = mnemonic i ∧ encode i &&& r.mask = r.bits

/-- Masking a command word masks each of its fields. -/
theorem commandWord_and (op : BitVec 4) (sel ms : Sel) (d md : Data) :
    commandWord op sel d &&& ((0xFF : BitVec 8) ++ ms ++ md) = commandWord op (sel &&& ms) (d &&& md) := by
  have h : ((0xFF : BitVec 8) ++ ms ++ md) = (0xF : BitVec 4) ++ (0xF : BitVec 4) ++ ms ++ md := rfl
  rw [h, commandWord, commandWord, BitVec.and_append, BitVec.and_append, BitVec.and_append]
  congr 3
  exact BitVec.and_allOnes

theorem getf (sel : Sel) : Statement (.getf sel) :=
  ⟨⟨"GETF", 0x10000000000000000000, 0xFF00FFFFFFFFFFFFFFFF⟩, by decide, rfl,
    (commandWord_and _ _ 0x00 _ 0xFFFFFFFFFFFFFFFF).trans (by simp [commandWord])⟩

theorem setf (sel : Sel) (wdata : Data) : Statement (.setf sel wdata) :=
  ⟨⟨"SETF", 0x20000000000000000000, 0xFF000000000000000000⟩, by decide, rfl,
    (commandWord_and _ _ 0x00 _ 0x0000000000000000).trans (by simp [commandWord])⟩

theorem getb (sel : Sel) : Statement (.getb sel) :=
  ⟨⟨"GETB", 0x30000000000000000000, 0xFF00FFFFFFFFFFFFFFFF⟩, by decide, rfl,
    (commandWord_and _ _ 0x00 _ 0xFFFFFFFFFFFFFFFF).trans (by simp [commandWord])⟩

theorem setb (sel : Sel) (wdata : Data) : Statement (.setb sel wdata) :=
  ⟨⟨"SETB", 0x40000000000000000000, 0xFF000000000000000000⟩, by decide, rfl,
    (commandWord_and _ _ 0x00 _ 0x0000000000000000).trans (by simp [commandWord])⟩

theorem mclr : Statement .mclr :=
  ⟨⟨"MCLR", 0x50000000000000000000, 0xFFFFFFFFFFFFFFFFFFFF⟩, by decide, rfl,
    (commandWord_and _ _ 0xFF _ 0xFFFFFFFFFFFFFFFF).trans (by simp [commandWord])⟩

theorem mload (wdata : Data) : Statement (.mload wdata) :=
  ⟨⟨"MLOAD", 0x60000000000000000000, 0xFFFF0000000000000000⟩, by decide, rfl,
    (commandWord_and _ _ 0xFF _ 0x0000000000000000).trans (by simp [commandWord])⟩

theorem tagset (wdata : Data) : Statement (.tagset wdata) :=
  ⟨⟨"TAGSET", 0x70000000000000000000, 0xFFFF0000000000000000⟩, by decide, rfl,
    (commandWord_and _ _ 0xFF _ 0x0000000000000000).trans (by simp [commandWord])⟩

theorem tagget : Statement .tagget :=
  ⟨⟨"TAGGET", 0x80000000000000000000, 0xFFFFFFFFFFFFFFFFFFFF⟩, by decide, rfl,
    (commandWord_and _ _ 0xFF _ 0xFFFFFFFFFFFFFFFF).trans (by simp [commandWord])⟩

theorem p2n (wdata : Data) : Statement (.p2n wdata) :=
  ⟨⟨"P2N", 0x90000000000000000000, 0xFFFF0000000000000000⟩, by decide, rfl,
    (commandWord_and _ _ 0xFF _ 0x0000000000000000).trans (by simp [commandWord])⟩

theorem n2p (wdata : Data) : Statement (.n2p wdata) :=
  ⟨⟨"N2P", 0xA0000000000000000000, 0xFFFF0000000000000000⟩, by decide, rfl,
    (commandWord_and _ _ 0xFF _ 0x0000000000000000).trans (by simp [commandWord])⟩

theorem rdstat : Statement .rdstat :=
  ⟨⟨"RDSTAT", 0xB0000000000000000000, 0xFFFFFFFFFFFFFFFFFFFF⟩, by decide, rfl,
    (commandWord_and _ _ 0xFF _ 0xFFFFFFFFFFFFFFFF).trans (by simp [commandWord])⟩

end Sys2Proof.Laws.TableRow
end

