-- ==== Sys2Proof/Laws/Runs.lean ====
section
/-! SUPPORT. Runs of several steps: a run unfolds one step at a time, and each step takes exactly the host's next move
(20_memory.md R62; log 1). -/

namespace Sys2Proof.Machine

/-- A command leaves the host's moves alone, whatever it answers. -/
theorem exec_inputs {i : Instr} {s t : State} (h : exec i s = .next t) : t.inputs = s.inputs := by
  rcases exec_cases h with ⟨-, rfl⟩ | ⟨-, c, -, -, rfl⟩ | ⟨b, x, v, d, rfl, -⟩ <;> rfl

/-- A step takes the next move and leaves the others. -/
theorem step_inputs {s t : State} (h : step s = .next t) : t.inputs = s.inputs.tail := by
  rcases step_cases h with ⟨hi, rfl⟩ | ⟨rest, hi, rfl⟩ | ⟨w, m, rest, i, hi, -, he⟩ | ⟨w, m, rest, e, hi, -, he⟩
  · rw [hi]; rfl
  · rw [hi]; rfl
  · rw [exec_inputs he, hi]; rfl
  · rw [illegalWord_eq] at he
    split at he <;> cases he <;> rw [hi] <;> rfl

/-- A run of `k + 1` steps is one step and a run of `k`. -/
theorem run_succ_of_next {s t : State} (k : Nat) (h : step s = .next t) :
    Host.Core.run core (k + 1) s = Host.Core.run core k t := by
  have h' : core.step s = .next t := h
  have hr := Host.Core.run.eq_2 core s k
  rwa [h'] at hr

end Sys2Proof.Machine
end

