-- ==== Sys2Proof/Tests/Slice0.lean ====
section
/-! SUPPORT. Tests of the model on values the spec states (95_test_vectors.md unless another file is named), the refusal of an
ill-formed Field Table by each check, and for every statement that has hypotheses a witness that meets them. -/

namespace Sys2Proof.Tests

-- Each evaluation by the kernel waits for the ones before it: one thread is enough, and many would each hold a stack.
set_option Elab.async false

open Sys2Proof.Machine

/-! ### Helpers -/

/-- The pattern buffer PB of 95_test_vectors.md section 2.1: byte `i` is `0xA0 + i`. -/
def pattern : MsgWord :=
  0xA0A1A2A3A4A5A6A7A8A9AAABACADAEAFB0B1B2B3B4B5B6B7B8B9BABBBCBDBEBFC0C1C2C3C4C5C6C7C8C9CACBCCCDCECF

/-- Fresh, with PB in BUF and the tag 0x2A (M3). -/
def loaded : State :=
  { State.reset with buf := Memory.ofMessage pattern 48, tag := 0x2A, tagValid := true }

/-- RESP of 95_test_vectors.md program P2. -/
def response : MsgWord :=
  0x2402000000000000000000004C4F434C83AA82040000000083AA82680000000083AA82681999999A83AA826833333333

/-- Fresh, with every byte 0xFF. -/
def allOnes : State :=
  { State.reset with buf := Memory.ofMessage (BitVec.allOnes 384) 48 }

/-- Fresh, but halted by code 3 (H1). -/
def haltedState : State := { State.reset with fault := 3 }

/-- Fresh, with `w` presented. -/
def presenting (w : CmdWord) : State := State.reset.pushMove (.command w 0)

/-- The next state of an outcome, if it is one. -/
def nextOf (o : Host.Outcome State Fault Refusal) : Option State :=
  match o with
  | .next t => some t
  | .fault _ => none
  | .refused _ => none

/-- The response of an outcome: (status, rdata). -/
def answer (o : Host.Outcome State Fault Refusal) : Option (Nat × Nat) :=
  match nextOf o with
  | some t => t.rsp.map fun r => (r.status.toNat, r.rdata.toNat)
  | none => none

/-- The first bytes of BUF of an outcome. -/
def firstBytes (n : Nat) (o : Host.Outcome State Fault Refusal) : List Nat :=
  match nextOf o with
  | some t => (List.range n).map fun i => (t.buf.read i).toNat
  | none => []

/-! ### Decoding, words written out from 30_encoding.md R82 and R86: op, rsv, sel (2 digits), wdata (16 digits) -/

theorem test_decode_getf : decode 0x100C0000000000000000 = .ok (.getf 12) := by decide
theorem test_decode_setf : decode 0x200A83AA826800000000 = .ok (.setf 10 0x83AA826800000000) := by decide
theorem test_decode_getb : decode 0x302F0000000000000000 = .ok (.getb 47) := by decide
theorem test_decode_setb : decode 0x402F00000000000000FF = .ok (.setb 47 0xFF) := by decide
theorem test_decode_mclr : decode 0x50000000000000000000 = .ok .mclr := by decide
theorem test_decode_mload : decode 0x6000000000000000002A = .ok (.mload 0x2A) := by decide
theorem test_decode_tagset : decode 0x70000000C0A80001007B = .ok (.tagset 0xC0A80001007B) := by decide
theorem test_decode_tagget : decode 0x80000000000000000000 = .ok .tagget := by decide
theorem test_decode_p2n : decode 0x9000408F400000000000 = .ok (.p2n 0x408F400000000000) := by decide
theorem test_decode_n2p : decode 0xA00083AA826800000000 = .ok (.n2p 0x83AA826800000000) := by decide
theorem test_decode_rdstat : decode 0xB0000000000000000000 = .ok .rdstat := by decide

/-- Illegal words and their reasons (section 2.8). -/
theorem test_decode_illegal :
    decode 0x00000000000000000000 = .error .reservedOp ∧ decode 0xC0000000000000000000 = .error .reservedOp ∧
    decode 0xD0000000000000000000 = .error .reservedOp ∧ decode 0xE0000000000000000000 = .error .reservedOp ∧
    decode 0xFFFFFFFFFFFFFFFFFFFF = .error .rsvNonZero ∧ decode 0x2F0C0000000000000000 = .error .rsvNonZero ∧
    decode 0x100D0000000000000001 = .error .wdataNonZero ∧ decode 0x50010000000000000000 = .error .selNonZero ∧
    decode 0x90017FF0000000000000 = .error .selNonZero ∧ decode 0xB0000000000000000001 = .error .wdataNonZero := by decide

/-- The bit numbering of opcode_table.json. -/
theorem test_decode_table_word :
    decodeTableWord 80 0x20010000000000000007 = some (.setf 1 7) ∧ decodeTableWord 80 0x20000000000000000000 = some (.setf 0 0) ∧
    decodeTableWord 80 0 = none := by decide

/-- The word placed for the fetch is the one the next step performs. -/
theorem test_fetch_word :
    answer (step (State.reset.withFetchWord 80 0x90000000000000000000)) = some (0, 0x83AA7E8000000000) := by decide +kernel

/-! ### An ill-formed Field Table is refused by the check it fails (00_scope.md R10) -/

/-- The standard table. -/
theorem test_field_table_ok : fieldTableWellFormed Config.fieldTable = true := by decide

/-- Twelve entries. -/
theorem test_field_count_refused : fieldCountOk (Config.fieldTable.take 12) = false := by decide

/-- A field of no bit, and one of 65. -/
theorem test_field_length_refused : fieldLengthsOk [⟨"A", 0, 0⟩] = false ∧ fieldLengthsOk [⟨"A", 0, 65⟩] = false := by decide

/-- Two fields that overlap in one bit. -/
theorem test_field_order_refused : fieldOrderOk [⟨"A", 0, 8⟩, ⟨"B", 7, 8⟩] = false := by decide

/-- A table that needs 47 bytes. -/
theorem test_field_size_refused : fieldSizeOk [⟨"A", 0, 376⟩] = false := by decide

/-- A field that ends past the last bit. -/
theorem test_field_end_refused : fieldEndsOk [⟨"A", 381, 4⟩] = false := by decide

/-- Each refusal refuses the table. -/
theorem test_ill_formed_table_refused : fieldTableWellFormed (Config.fieldTable.take 12 ++ [⟨"T", 321, 64⟩]) = false := by decide

/-! ### Bit geometry (section 2.1) -/

theorem test_geometry_synthetic :
    bitgeom 0 1 = ⟨0, 1, 1, 0, 7, 0xFF, 0x80⟩ ∧ bitgeom 383 1 = ⟨47, 48, 1, 7, 0, 0x01, 0xFF⟩ ∧
    bitgeom 1 6 = ⟨0, 1, 1, 1, 1, 0x7F, 0xFE⟩ ∧ bitgeom 6 4 = ⟨0, 2, 2, 6, 6, 0x03, 0xC0⟩ ∧
    bitgeom 12 7 = ⟨1, 3, 2, 4, 5, 0x0F, 0xE0⟩ ∧ bitgeom 317 64 = ⟨39, 48, 9, 5, 3, 0x07, 0xF8⟩ := by decide

theorem test_field_read_synthetic :
    [fieldRead loaded 3 13, fieldRead loaded 12 7, fieldRead loaded 6 4, fieldRead loaded 5 64] =
      [some 0x00A1, some 0x0D, some 0x2, some 0x1434547494B4D4F5] := by decide +kernel

theorem test_field_write_synthetic :
    (fieldWrite allOnes 5 64 0).map (fun t => (List.range 10).map fun i => (t.buf.read i).toNat) =
      some [0xF8, 0, 0, 0, 0, 0, 0, 0, 0x07, 0xFF] ∧
    (fieldWrite allOnes 12 7 0x55).map (fun t => (List.range 4).map fun i => (t.buf.read i).toNat) =
      some [0xFF, 0xFA, 0xBF, 0xFF] := by decide +kernel

/-! ### One step of each command -/

/-- F1: the two neighbours in byte 0, and the last field. -/
theorem test_getf_reads :
    answer (exec (.getf 0) loaded) = some (0, 2) ∧ answer (exec (.getf 1) loaded) = some (0, 4) ∧
    answer (exec (.getf 12) loaded) = some (0, 0xC8C9CACBCCCDCECF) := by decide +kernel

/-- F6. -/
theorem test_getf_invalid_field : answer (exec (.getf 13) State.reset) = some (1, 0) := by decide

/-- F3, and 2^len - 1 in a fresh buffer (F2). -/
theorem test_setf_writes :
    firstBytes 2 (exec (.setf 1 0) allOnes) = [0xC7, 0xFF] ∧ firstBytes 2 (exec (.setf 1 7) State.reset) = [0x38, 0] := by
  decide +kernel

/-- F6: the value's limit, and the index checked first. -/
theorem test_setf_faults :
    answer (exec (.setf 0 4) State.reset) = some (2, 0) ∧
    answer (exec (.setf 13 0xFFFFFFFFFFFFFFFF) State.reset) = some (1, 0) := by decide +kernel

/-- Section 2.3. -/
theorem test_getb_reads : answer (exec (.getb 47) loaded) = some (0, 0xCF) := by decide +kernel

theorem test_getb_invalid_index : answer (exec (.getb 48) State.reset) = some (3, 0) := by decide

/-- Section 2.3: the byte is written whole. -/
theorem test_setb_writes : firstBytes 2 (exec (.setb 0 0x24) loaded) = [0x24, 0xA1] := by decide +kernel

theorem test_setb_faults :
    answer (exec (.setb 47 256) State.reset) = some (2, 0) ∧ answer (exec (.setb 48 256) State.reset) = some (3, 0) := by decide

/-- M4. -/
theorem test_mclr : nextOf (exec .mclr loaded) = some { State.reset with rsp := some ⟨0, 0⟩ } := by decide +kernel

/-- M3: the message on `msg_in` is what `msg_out` shows. -/
theorem test_mload :
    (nextOf (exec (.mload 0x2A) { State.reset with msgIn := pattern })).map (fun t => (t.msgOut, t.tag, t.tagValid)) =
      some (pattern, 0x2A, true) := by decide +kernel

/-- M5: tag 0 is a tag. -/
theorem test_tagset_zero : (nextOf (exec (.tagset 0) State.reset)).map (fun t => t.tagValid) = some true := by decide

/-- M1 and M2. -/
theorem test_tagget :
    answer (exec .tagget State.reset) = some (0, 0) ∧
    answer (exec .tagget { State.reset with tag := 0xC0A80001007B, tagValid := true }) = some (0, 0xC0A80001007B) := by decide

/-- Section 2.5: the source's example, a tie carried into the seconds, and a negative subnormal. -/
theorem test_p2n_values :
    [posixToNtp 0x41D954FC40200000, posixToNtp 0x3FEFFFFFFFF00000, posixToNtp 0x800012688B70E62B, posixToNtp 0x3DF8000000000000] =
      [some 0xE8FE6F8080000000, some 0x83AA7E8100000000, some 0x83AA7E8000000000, some 0x83AA7E8000000002] := by decide +kernel

/-- Section 2.5: the ends of the range, and a NaN. -/
theorem test_p2n_range :
    answer (exec (.p2n 0xC1E0754FD0000001) State.reset) = some (5, 0) ∧
    answer (exec (.p2n 0x41DF15605FFFFFFF) State.reset) = some (0, 0xFFFFFFFFFFFFFC00) ∧
    answer (exec (.p2n 0x7FF8000000000000) State.reset) = some (5, 0) := by decide +kernel

/-- Section 2.6: the signed difference, its zero, and the two ties. -/
theorem test_n2p_values :
    [ntpToPosix 0x83AA7E7FFFFFFFFF, ntpToPosix 0x83AA7E8000000000, ntpToPosix 0x83CA7E8000000001, ntpToPosix 0x83CA7E8000000003] =
      [some 0xBDF0000000000000, some 0, some 0x4140000000000000, some 0x4140000000000002] := by decide +kernel

/-- Section 2.6: the first and the last timestamp. -/
theorem test_n2p_ends :
    answer (exec (.n2p 0) State.reset) = some (0, 0xC1E0754FD0000000) ∧
    answer (exec (.n2p 0xFFFFFFFFFFFFFFFF) State.reset) = some (0, 0x41DF156060000000) := by decide +kernel

/-- Section 2.7. -/
theorem test_rdstat :
    answer (exec .rdstat { State.reset with tagValid := true, fault := 5 }) = some (0, 0x105) ∧
    answer (exec .rdstat { State.reset with fault := 2 }) = some (0, 2) := by decide

/-! ### Illegal words, the halt and reset -/

/-- Section 2.8. -/
theorem test_illegal_word :
    nextOf (step (presenting 0x11000000000000000000)) = some { State.reset with fault := 4, rsp := some ⟨4, 0⟩ } := by decide +kernel

/-- H2, H3: a halted block refuses reads and illegal words alike, and keeps its first fault. -/
theorem test_halted :
    nextOf (exec .tagget haltedState) = some { haltedState with rsp := some ⟨6, 0⟩ } ∧
    nextOf (step (haltedState.pushMove (.command 0 0))) = some { haltedState with rsp := some ⟨6, 0⟩ } := by decide +kernel

/-- H4. -/
theorem test_reset_clears : nextOf (step (haltedState.pushMove .reset)) = some State.reset := by decide +kernel

/-! ### The assembler (30_encoding.md R90, R91) and the host's arithmetic (section 2.10) -/

theorem test_assemble :
    assemble "SETF   TransmitTimestamp, 0x83AA826800000000   ; T1" = some (.command 0x200C83AA826800000000 0) ∧
    assemble "P2N  f64(1000.1)" = some (.command 0x9000408F40CCCCCCCCCD 0) := by decide +kernel

/-- MLOAD's bracket is `msg_in`, byte 0 first (M3). -/
theorem test_assemble_mload :
    assemble
      "MLOAD 0x2A, [A0A1A2A3A4A5A6A7A8A9AAABACADAEAFB0B1B2B3B4B5B6B7B8B9BABBBCBDBEBFC0C1C2C3C4C5C6C7C8C9CACBCCCDCECF]" =
      some (.command 0x6000000000000000002A pattern) := by decide +kernel

/-- An operand that does not fit, a name in the wrong case, and a missing operand. -/
theorem test_assemble_refused :
    assemble "SETB 256, 0" = none ∧ assemble "GETF mode" = none ∧ assemble "SETF LI" = none ∧
    assemble "TAGSET 0x10000000000000000" = none := by decide +kernel

theorem test_host_arithmetic :
    [fx2s 0x33333334, fx2s (2 ^ 53 + 3), fx2s (-(2 ^ 53 + 1)), fhalf 0xC034000000000000,
      fadd 0x409F438000000000 0xC024000000000000] =
      [some 0x3FC999999A000000, some 0x4140000000000002, some 0xC140000000000000, some 0xC024000000000000,
       some 0x409F1B8000000000] := by decide +kernel

/-- Scenario A: delay 0.5, offset 5.0, corrected time 1005.75. -/
theorem test_sync_result :
    syncResult 0x83AA826800000000 0x83AA826D40000000 0x83AA826D80000000 0x83AA8268C0000000 0x408F460000000000 =
      some ⟨0x3FE0000000000000, 0x4014000000000000, 0x408F6E0000000000⟩ := by decide +kernel

/-- P3, variants a, b, f and g. -/
theorem test_validation :
    validate 1 2 2 9 4 = some .replayMismatch ∧ validate 1 1 0 9 4 = some .nonCompliant ∧ validate 1 1 2 9 5 = none ∧
    validate 1 2 0 9 4 = some .replayMismatch := by decide

/-! ### Witnesses: the hypotheses of each statement, met together -/

theorem next_of {o : Host.Outcome State Fault Refusal} {t : State} (h : nextOf o = some t) : o = .next t := by
  cases o <;> simp_all [nextOf]

/-- Both clauses: a legal word and an illegal one. -/
theorem witness_DecodeMatchesOpcodeTable :
    decode 0x20FFFFFFFFFFFFFFFFFF = .ok (.setf 0xFF 0xFFFFFFFFFFFFFFFF) ∧ decode 0xC0000000000000000000 = .error .reservedOp := by
  decide

/-- A word illegal by each ground, presented to a block whose FAULT is 0. -/
theorem witness_IllegalWordsRaiseIllegalCommand :
    (0xC0000000000000000000 : CmdWord).extractLsb' 76 4 = 0xC ∧ (0x11000000000000000000 : CmdWord).extractLsb' 72 4 ≠ 0 ∧
    ((0x10000000000000000001 : CmdWord).extractLsb' 0 64 ≠ 0 ∧ (0x10000000000000000001 : CmdWord).extractLsb' 76 4 = 0x1) ∧
    ((0x50010000000000000000 : CmdWord).extractLsb' 64 8 ≠ 0 ∧ (0x50010000000000000000 : CmdWord).extractLsb' 76 4 = 0x5) ∧
    (presenting 0xC0000000000000000000).inputs = .command 0xC0000000000000000000 0 :: [] ∧
    (presenting 0xC0000000000000000000).fault = 0 := by decide +kernel

theorem witness_StepPerformsTheDecodedCommand :
    (presenting 0x100C0000000000000000).inputs = .command 0x100C0000000000000000 0 :: [] ∧
    decode 0x100C0000000000000000 = .ok (.getf 12) := by decide +kernel

theorem witness_IdleBlockKeepsItsState : State.reset.inputs = [] := by decide

/-- A legal and an illegal word presented. -/
theorem witness_EveryCommandIsAnswered :
    (presenting 0xB0000000000000000000).inputs = .command 0xB0000000000000000000 0 :: [] ∧
    (presenting 0).inputs = .command 0 0 :: [] := by decide +kernel

/-- A state with cells in BUF and a tag, that takes a writing step. -/
theorem witness_StepKeepsInvariant :
    (loaded.pushMove (.command 0x20000000000000000003 0)).Inv ∧
    (nextOf (step (loaded.pushMove (.command 0x20000000000000000003 0)))).isSome = true := by decide +kernel

/-- Two states that differ in the port and agree in the registers, and a run of one command. -/
theorem witness_NoHiddenState :
    (presenting 0xB0000000000000000000).buf = { presenting 0xB0000000000000000000 with rsp := some ⟨6, 0⟩, msgIn := pattern }.buf ∧
    (nextOf (Host.Core.run core 1 (presenting 0xB0000000000000000000))).isSome = true ∧
    (nextOf (Host.Core.run core 1
      { presenting 0xB0000000000000000000 with rsp := some ⟨6, 0⟩, msgIn := pattern })).isSome = true ∧
    .command 0xB0000000000000000000 0 ∈ (presenting 0xB0000000000000000000).inputs.take 1 := by decide +kernel

theorem witness_ResetStateValues : loaded.fault = 0 := by decide +kernel

/-- Both clauses: a halted block reset, with FAULT 0 after it. -/
theorem witness_OnlyResetClearsFault :
    (haltedState.pushMove .reset).inputs = .reset :: [] ∧ (haltedState.pushMove .reset).fault ≠ 0 ∧
    step (haltedState.pushMove .reset) = .next State.reset ∧ State.reset.fault = 0 :=
  ⟨by decide +kernel, by decide +kernel, next_of (by decide +kernel), by decide +kernel⟩

/-- A legal word, and RDSTAT's own operation code in an illegal word. -/
theorem witness_HaltedBlockAnswersHalted :
    (haltedState.pushMove (.command 0x80000000000000000000 0)).inputs = .command 0x80000000000000000000 0 :: [] ∧
    haltedState.fault ≠ 0 ∧ decode 0x80000000000000000000 ≠ .ok .rdstat ∧ decode 0xB0010000000000000000 ≠ .ok .rdstat := by
  decide +kernel

/-- A word presented to a running block and to a halted one. -/
theorem witness_StatusPriority :
    (presenting 0x200DFFFFFFFFFFFFFFFF).inputs = .command 0x200DFFFFFFFFFFFFFFFF 0 :: [] ∧
    answer (step (presenting 0x200DFFFFFFFFFFFFFFFF)) = some (1, 0) ∧
    answer (step (haltedState.pushMove (.command 0x200DFFFFFFFFFFFFFFFF 0))) = some (6, 0) := by decide +kernel

/-- Both clauses: a fault raised, and a halted block. -/
theorem witness_FaultEntryWritesOnlyFault :
    exec (.getf 13) State.reset = .next { State.reset with fault := 1, rsp := some ⟨1, 0⟩ } ∧
    exec (.getf 13) haltedState = .next { haltedState with rsp := some ⟨6, 0⟩ } ∧ haltedState.fault ≠ 0 :=
  ⟨next_of (by decide +kernel), next_of (by decide +kernel), by decide +kernel⟩

/-- Every clause: a command that is none of the writers, answered OK. -/
theorem witness_CommandsLeaveTheRestAlone :
    exec .tagget State.reset = .next { State.reset with rsp := some ⟨0, 0⟩ } ∧ (∀ k v, Instr.tagget ≠ .setf k v) ∧
    (∀ k v, Instr.tagget ≠ .setb k v) ∧ Instr.tagget ≠ .mclr ∧ (∀ x, Instr.tagget ≠ .mload x) ∧
    ∀ x, Instr.tagget ≠ .tagset x :=
  ⟨next_of (by decide +kernel), nofun, nofun, nofun, nofun, nofun⟩

theorem witness_TagIsOpaque :
    Instr.rdstat ≠ .tagget ∧ exec .rdstat State.reset = .next { State.reset with rsp := some ⟨0, 0⟩ } :=
  ⟨nofun, next_of (by decide +kernel)⟩

/-- Both clauses: a read, and a write. -/
theorem witness_ReadsAreFreeOfEffectsAndWritesIdempotent :
    loaded.buf.wf ∧ answer (exec (.getf 12) loaded) = some (0, 0xC8C9CACBCCCDCECF) ∧
    exec (.setb 47 255) State.reset = .next { State.reset with buf := [(47, 255)], rsp := some ⟨0, 0⟩ } :=
  ⟨by decide +kernel, by decide +kernel, next_of (by decide +kernel)⟩

/-- The ends of the range, over one byte and over nine. -/
theorem witness_BitGeometry :
    (1 ≤ 1 ∧ 383 + 1 ≤ 384) ∧ (1 ≤ 384 ∧ 0 + 384 ≤ 384) ∧ ((1 ≤ 64 ∧ 317 + 64 ≤ 384) ∧ 64 ≤ 64 ∧ (bitgeom 317 64).n = 9) := by
  decide

/-- The last byte, and the first byte outside. -/
theorem witness_ByteRangesAreBigEndian : (3 < 4) ∧ (43 < 44 ∨ 44 + 4 ≤ 43) ∧ (48 < 44 ∨ 44 + 4 ≤ 48) := by decide

theorem witness_MessagePortsShowTheBuffer : 47 < 48 ∧ 383 < 384 ∧ loaded.fault = 0 := by decide +kernel

/-- An unaligned field of 64 bits at the far end, with the largest value. -/
theorem witness_FieldAccessIsWholeBufferForm : 1 ≤ 64 ∧ 64 ≤ 64 ∧ 317 + 64 ≤ 384 ∧ 2 ^ 64 - 1 < 2 ^ 64 := by decide

theorem witness_SingleByteFields : 1 ≤ 6 ∧ 1 + 6 ≤ 384 ∧ (bitgeom 1 6).n = 1 ∧ 63 < 2 ^ 6 := by decide

/-- Both clauses at the bound of the index. -/
theorem witness_GetfReadsTheField :
    loaded.fault = 0 ∧ Config.fieldTable[(12 : Sel).toNat]? = some ⟨"TransmitTimestamp", 320, 64⟩ ∧ 13 ≤ (13 : Sel).toNat := by
  decide +kernel

/-- Each clause: a value that just fits, one that just does not, and an index out of the table. -/
theorem witness_SetfWritesTheField :
    loaded.fault = 0 ∧ Config.fieldTable[(1 : Sel).toNat]? = some ⟨"VN", 2, 3⟩ ∧ (7 : Data).toNat < 2 ^ 3 ∧
    2 ^ 3 ≤ (8 : Data).toNat ∧ 13 ≤ (13 : Sel).toNat := by decide +kernel

theorem witness_FieldCommandsOnTheWholeBuffer :
    loaded.fault = 0 ∧ Config.fieldTable[(0 : Sel).toNat]? = some ⟨"LI", 0, 2⟩ ∧ (3 : Data).toNat < 2 ^ 2 := by decide +kernel

theorem witness_SetfThenGetf :
    exec (.setf 1 7) State.reset = .next { State.reset with buf := [(0, 0x38)], rsp := some ⟨0, 0⟩ } := next_of (by decide +kernel)

/-- Both clauses: the field next to the one written, and the table's entry for it. -/
theorem witness_NoBitBleed :
    exec (.setf 1 7) State.reset = .next { State.reset with buf := [(0, 0x38)], rsp := some ⟨0, 0⟩ } ∧ (2 : Sel) ≠ 1 ∧
    (2 : Sel).toNat < 13 ∧ Config.fieldTable[(1 : Sel).toNat]? = some ⟨"VN", 2, 3⟩ :=
  ⟨next_of (by decide +kernel), by decide +kernel, by decide +kernel, by decide +kernel⟩

theorem witness_ReparsedMessageHasTheSameFields :
    loaded.fault = 0 ∧ State.reset.fault = 0 ∧ (12 : Sel).toNat < 13 := by decide +kernel

/-- Both clauses at the bound of the index. -/
theorem witness_GetbReadsTheByte : loaded.fault = 0 ∧ (47 : Sel).toNat < 48 ∧ 48 ≤ (48 : Sel).toNat := by decide +kernel

/-- Each clause at its bound. -/
theorem witness_SetbWritesTheByte :
    loaded.fault = 0 ∧ (47 : Sel).toNat < 48 ∧ (255 : Data).toNat < 256 ∧ 256 ≤ (256 : Data).toNat ∧ 48 ≤ (48 : Sel).toNat := by
  decide +kernel

/-- Both clauses: the last byte of the field RootDelay, and a byte it overlaps. -/
theorem witness_ByteAndFieldViewsAgree :
    loaded.fault = 0 ∧ Config.fieldTable[(6 : Sel).toNat]? = some ⟨"RootDelay", 32, 32⟩ ∧
    (0xFFFFFFFF : Data).toNat < 2 ^ 32 ∧ geomStart 32 ≤ (7 : Sel).toNat ∧ (7 : Sel).toNat < geomStop 32 32 ∧
    (7 : Sel).toNat < 48 ∧ (255 : Data).toNat < 256 ∧ 31 < 32 := by decide +kernel

/-- Both clauses: a running block and a halted one. -/
theorem witness_MclrClearsTheMessage :
    loaded.fault = 0 ∧ (12 : Sel).toNat < 13 ∧ (47 : Sel).toNat < 48 ∧ haltedState.fault ≠ 0 := by decide +kernel

theorem witness_MloadLoadsTheMessage : loaded.fault = 0 ∧ 47 < 48 := by decide +kernel

theorem witness_TagsetAttachesTheTag : loaded.fault = 0 := by decide +kernel

/-- Each clause: no tag in a state that meets the invariant, and a tag just attached. -/
theorem witness_TaggetReadsTheTag :
    State.reset.fault = 0 ∧ State.reset.Inv ∧ State.reset.tagValid = false ∧
    exec (.tagset 7) State.reset = .next { State.reset with tag := 7, tagValid := true, rsp := some ⟨0, 0⟩ } :=
  ⟨by decide +kernel, by decide +kernel, by decide +kernel, next_of (by decide +kernel)⟩

/-- A tie, and a fraction of any sign. -/
theorem witness_RoundHalfEven : 0 < 2 ∧ rhe 1 2 = 0 ∧ rhe 3 2 = 2 ∧ rhe (-1) 2 = 0 := by decide +kernel

/-- Each clause: zero, the ends of the range, and a value outside each end. -/
theorem witness_NearestBinary64 :
    rne64 0 1 = some 0 ∧ rne64 1 (2 ^ 1022) = some 0x0010000000000000 ∧ rne64 1 (2 ^ 1023) = none ∧
    rne64 (2 ^ 1024 - 2 ^ 970 - 1) 1 = some 0x7FEFFFFFFFFFFFFF ∧ rne64 (2 ^ 1024 - 2 ^ 970) 1 = none := by decide +kernel

/-- Each clause: a pattern that is no number, one converted, and one outside the range. -/
theorem witness_P2nConverts :
    loaded.fault = 0 ∧ f64val 0x7FF0000000000000 = none ∧ f64val 0x3FE0000000000000 = some (2 ^ 52, 2 ^ 53) ∧
    posixToNtp 0x3FE0000000000000 = some 0x83AA7E8080000000 ∧ f64val 0x41DF156060000000 = some (0x1F156060000000, 2 ^ 22) ∧
    posixToNtp 0x41DF156060000000 = none := by decide +kernel

/-- A finite pattern, and the exponent from which every pattern is a multiple of 2^-32. -/
theorem witness_P2nRoundsOnce :
    f64val 0x3FE0000000000000 = some (2 ^ 52, 2 ^ 53) ∧ 1043 ≤ ((0x4130000000000000 : Data).extractLsb' 52 11).toNat := by
  decide +kernel

theorem witness_P2nDomain : posixToNtp 0x3FE0000000000000 = some 0x83AA7E8080000000 := by decide +kernel

theorem witness_N2pConverts : loaded.fault = 0 := by decide +kernel

/-- Both clauses: a number converted, and a timestamp at the end of the exact range. -/
theorem witness_TimestampRoundTrip :
    posixToNtp 0x408F400000000000 = some 0x83AA826800000000 ∧ |((0x83CA7E7FFFFFFFFF : Data).toNat : ℤ) - 0x83AA7E8000000000| < 2 ^ 53 := by
  decide +kernel

/-- Two states that differ in BUF and TAG. -/
theorem witness_ConversionsAreDeterministic :
    loaded.fault = 0 ∧ State.reset.fault = 0 ∧ answer (exec (.p2n 0) loaded) = some (0, 0x83AA7E8000000000) ∧
    answer (exec (.n2p 0) State.reset) = some (0, 0xC1E0754FD0000000) := by decide +kernel

theorem witness_BlocksAreIndependent :
    stepBlock [presenting 0xB0000000000000000000, haltedState] 0 =
      .next [{ State.reset with rsp := some ⟨0, 0⟩ }, haltedState] := rfl

/-- Each clause: a run of one command that faults, from FAULT 0 and without a reset, and a run that ended well. -/
theorem witness_FaultedRunDidNotEndWell :
    Host.Core.run core 1 (presenting 0x100D0000000000000000) = .next { State.reset with fault := 1, rsp := some ⟨1, 0⟩ } ∧
    1 ≤ (presenting 0x100D0000000000000000).inputs.length ∧
    (presenting 0x100D0000000000000000).fault = 0 ∧ (∀ m ∈ (presenting 0x100D0000000000000000).inputs, m ≠ .reset) ∧
    endedWell (presenting 0xB0000000000000000000) = true ∧
    (presenting 0xB0000000000000000000).inputs[0]? = some (.command 0xB0000000000000000000 0) :=
  ⟨next_of (by decide +kernel), by decide +kernel, by decide +kernel, by decide +kernel, by decide +kernel,
    by decide +kernel⟩

/-- Each clause: a name of the table, and an operand that is neither a number nor a name. -/
theorem witness_FieldNamesAreIndices :
    fieldIndex "TransmitTimestamp" = some 12 ∧ readNumber "mode".toList = none ∧
    ∀ f ∈ Config.fieldTable, f.name.toList ≠ "mode".toList := by decide +kernel

/-- Lines of several forms, with operands at the bound of their field and, for two, one past it. -/
theorem witness_AssembledLinesAreCommandWords :
    AsmLine.move (.getf 255) = some (.command 0x10FF0000000000000000 0) ∧ AsmLine.move (.getf 256) = none ∧
    AsmLine.move (.setb 255 (2 ^ 64 - 1)) = some (.command 0x40FFFFFFFFFFFFFFFFFF 0) ∧
    AsmLine.move (.mload (2 ^ 64 - 1) pattern) = some (.command 0x6000FFFFFFFFFFFFFFFF pattern) ∧
    AsmLine.move (.n2p (2 ^ 64)) = none := by decide +kernel

theorem witness_ClientRequestMessage : loaded.fault = 0 ∧ posixToNtp 0x408F400000000000 = some 0x83AA826800000000 := by
  decide +kernel

/-- Each clause. -/
theorem witness_ClientValidation :
    (2 : Data) ≠ 1 ∧ ((1 : Data) = 1 ∧ (0 : Data) = 0) ∧ ((3 : Data) ≠ 4 ∧ (3 : Data) ≠ 5) ∧
    ((2 : Data) ≠ 0 ∧ (9 : Data) ≠ 0 ∧ ((5 : Data) = 4 ∨ (5 : Data) = 5)) := by decide

theorem witness_ClientReceivesTheResponse : loaded.fault = 0 ∧ posixToNtp 0x408F426666666666 = some 0x83AA82684CCCCCCD := by
  decide +kernel

/-- The response of P2, accepted. -/
theorem witness_AcceptedExchangeResults :
    ({ State.reset with buf := Memory.ofMessage response 48 } : State).fault = 0 ∧
    validate 0x83AA826800000000 (response.extractLsb' 128 64) ((response.extractLsb' 368 8).setWidth 64)
      (response.extractLsb' 0 64) ((response.extractLsb' 376 3).setWidth 64) = none ∧
    ({ State.reset with buf := Memory.ofMessage response 48 } : State).msgOut = response := by decide +kernel

/-- A loaded message whose originate time is not T1. -/
theorem witness_RejectionIsAHostOutcome :
    loaded.fault = 0 ∧ validate 1 (loaded.msgOut.extractLsb' 128 64) ((loaded.msgOut.extractLsb' 368 8).setWidth 64)
      (loaded.msgOut.extractLsb' 0 64) ((loaded.msgOut.extractLsb' 376 3).setWidth 64) = some .replayMismatch := by
  decide +kernel

/-- A running block and two clock readings; the reports are every value of their type. -/
theorem witness_ClientExchangeEnds :
    loaded.fault = 0 ∧ posixToNtp 0x408F400000000000 = some 0x83AA826800000000 ∧
    posixToNtp 0x408F426666666666 = some 0x83AA82684CCCCCCD := by decide +kernel

/-- Both clauses at the last value of the range. -/
theorem witness_ExactDifferencesAreTwosComplement :
    delayFx 0 0 0 0x7FFFFFFFFFFFFFFF = 2 ^ 63 - 1 ∧ offsetFx 0 0x7FFFFFFFFFFFFFFF 0 0 = 2 ^ 63 - 1 := by decide +kernel

theorem witness_ServerResponseMessage :
    loaded.fault = 0 ∧ (3 : Data).toNat < 4 ∧ (255 : Data).toNat < 256 ∧ (0xFFFFFFFF : Data).toNat < 2 ^ 32 ∧
    posixToNtp 0x408F40CCCCCCCCCD = some 0x83AA82681999999A ∧ posixToNtp 0x408F41999999999A = some 0x83AA826833333333 := by
  decide +kernel

end Sys2Proof.Tests
end

section
/-! SUPPORT. Proofs about the state: the `rsp` and `msg_in` ports are no hidden state (10_state.md R31), the values after reset
(R33), and the Field Table, whose entries tile the message (R26). -/

namespace Sys2Proof.Machine

/-! ### No command reads the `rsp` port -/

/-- The gate gives the same answer whatever the port holds, if the command behind it does. -/
theorem unlessHalted_rsp {s : State} {old : Option Response} {r r' : Host.Outcome State Fault Refusal} (h : r' = r) :
    unlessHalted { s with rsp := old } r' = unlessHalted s r := by
  subst h; rfl

/-- A buffer write carries the port along. -/
theorem bufWrite_rsp (s : State) (old : Option Response) (addr n v : Nat) :
    bufWrite { s with rsp := old } addr n v = (bufWrite s addr n v).map fun t => { t with rsp := old } := by
  unfold bufWrite
  split <;> rfl

/-- A field write carries the port along. -/
theorem fieldWrite_rsp (s : State) (old : Option Response) (o l v : Nat) :
    fieldWrite { s with rsp := old } o l v = (fieldWrite s o l v).map fun t => { t with rsp := old } := by
  unfold fieldWrite
  rw [show bufRead { s with rsp := old } (geomStart o) (geomBytes o l) = bufRead s (geomStart o) (geomBytes o l) from rfl]
  cases bufRead s (geomStart o) (geomBytes o l) with
  | none => rfl
  | some W => exact bufWrite_rsp s old _ _ _

theorem execSetf_rsp (sel : Sel) (wdata : Data) (s : State) (old : Option Response) :
    execSetf sel wdata { s with rsp := old } = execSetf sel wdata s := by
  refine unlessHalted_rsp ?_
  cases fieldAt sel with
  | none => rfl
  | some f =>
    dsimp only
    rw [fieldWrite_rsp]
    cases fieldWrite s f.off f.len wdata.toNat <;> rfl

theorem execSetb_rsp (sel : Sel) (wdata : Data) (s : State) (old : Option Response) :
    execSetb sel wdata { s with rsp := old } = execSetb sel wdata s := by
  refine unlessHalted_rsp ?_
  rw [byteWrite, bufWrite_rsp, ← byteWrite]
  cases byteWrite s sel.toNat wdata.toNat <;> rfl

/-- A command gives the same outcome whatever response stood on the port before. The two buffer writers pass the whole state
through an access that may be undefined; every other command names only the registers and `msg_in`, so that for it the two
sides are one term. -/
theorem exec_rsp (i : Instr) (s : State) (old : Option Response) : exec i { s with rsp := old } = exec i s := by
  cases i with
  | setf sel wdata => exact execSetf_rsp sel wdata s old
  | setb sel wdata => exact execSetb_rsp sel wdata s old
  | getf _ | getb _ | mclr | mload _ | tagset _ | tagget | p2n _ | n2p _ | rdstat => rfl

/-- A step that answers a command gives the same outcome whatever stood on the `rsp` and `msg_in` ports. -/
theorem step_ports_of_command {s : State} {w : CmdWord} {m : MsgWord} {rest : List HostMove}
    (h : s.inputs = .command w m :: rest) (old : Option Response) (shown : MsgWord) :
    step { s with rsp := old, msgIn := shown } = step s := by
  unfold step
  simp only [h]
  cases decode w with
  | ok i => exact exec_rsp i (present { s with inputs := rest } m) old
  | error e => rfl

/-! ### Blocks that differ in their ports alone -/

/-- The two blocks have equal registers and the same moves before them; their `rsp` and `msg_in` ports may differ. -/
def DifferInPorts (s s' : State) : Prop := ∃ old shown, s' = { s with rsp := old, msgIn := shown }

theorem differInPorts_iff {s s' : State} :
    DifferInPorts s s' ↔
      s.buf = s'.buf ∧ s.tag = s'.tag ∧ s.tagValid = s'.tagValid ∧ s.fault = s'.fault ∧ s.inputs = s'.inputs := by
  constructor
  · rintro ⟨old, shown, rfl⟩
    exact ⟨rfl, rfl, rfl, rfl, rfl⟩
  · rintro ⟨hbuf, htag, hvalid, hfault, hinputs⟩
    refine ⟨s'.rsp, s'.msgIn, ?_⟩
    rw [hbuf, htag, hvalid, hfault, hinputs]

/-- One step keeps the relation, and after it the responses are equal if they were before or a command was answered. -/
theorem step_differInPorts {s s' t t' : State} (hs : DifferInPorts s s') (h : step s = .next t) (h' : step s' = .next t') :
    DifferInPorts t t' ∧ ((s.rsp = s'.rsp ∨ ∃ w m, s.inputs.head? = some (.command w m)) → t.rsp = t'.rsp) := by
  obtain ⟨old, shown, rfl⟩ := hs
  rcases step_cases h with ⟨hi, rfl⟩ | ⟨rest, hi, rfl⟩ | ⟨w, m, rest, i, hi, -⟩ | ⟨w, m, rest, e, hi, -⟩
  case inl =>
    simp only [step, idle, hi, Host.Outcome.next.injEq] at h'
    subst h'
    exact ⟨⟨old, shown, by rw [hi]⟩, by simp [hi]⟩
  case inr.inl =>
    simp only [step, hi, Host.Outcome.next.injEq] at h'
    subst h'
    exact ⟨⟨old, shown, rfl⟩, by simp [hi]⟩
  all_goals
    rw [step_ports_of_command hi, h] at h'
    cases h'
    exact ⟨⟨_, _, rfl⟩, fun _ => rfl⟩

/-- A run that completes `k + 1` steps completes the first one, and `k` from there. -/
theorem run_succ_eq_next {M : Host.Core} {s t : M.State} {k : Nat} (h : M.run (k + 1) s = .next t) :
    ∃ u, M.step s = .next u ∧ M.run k u = .next t := by
  rw [Host.Core.run] at h
  split at h
  · next u hu => exact ⟨u, hu, h⟩
  · cases h
  · cases h

/-- The relation after any number of steps: the responses are equal if they were at the start or a command was answered. -/
theorem run_differInPorts (k : Nat) {s s' t t' : State} (hs : DifferInPorts s s')
    (h : Host.Core.run core k s = .next t) (h' : Host.Core.run core k s' = .next t') :
    DifferInPorts t t' ∧ ((s.rsp = s'.rsp ∨ ∃ w m, .command w m ∈ s.inputs.take k) → t.rsp = t'.rsp) := by
  induction k generalizing s s' with
  | zero =>
    cases h
    cases h'
    exact ⟨hs, by simp⟩
  | succ k ih =>
    obtain ⟨u, hu, hrun⟩ := run_succ_eq_next h
    obtain ⟨u', hu', hrun'⟩ := run_succ_eq_next h'
    obtain ⟨hports, hrsp⟩ := step_differInPorts hs hu hu'
    obtain ⟨hfinal, hfinalRsp⟩ := ih hports hrun hrun'
    refine ⟨hfinal, fun hstart => hfinalRsp ?_⟩
    rw [step_inputs hu]
    rcases hstart with heq | ⟨w, m, hmem⟩
    · exact .inl (hrsp (.inl heq))
    · cases hi : s.inputs with
      | nil => simp [hi] at hmem
      | cons move rest =>
        rw [hi, List.take_succ_cons, List.mem_cons] at hmem
        rcases hmem with rfl | hmem
        · exact .inl (hrsp (.inr ⟨w, m, by rw [hi]; rfl⟩))
        · exact .inr ⟨w, m, hmem⟩

/-- Settles O10, by induction on the number of steps: blocks that differ in their ports alone go on doing so, and the `rsp` port
is overwritten by the first command answered. -/
theorem noHiddenState : Obligations.NoHiddenState := by
  intro s s' hbuf htag hvalid hfault hinputs k t t' h h'
  have hs : DifferInPorts s s' := differInPorts_iff.2 ⟨hbuf, htag, hvalid, hfault, hinputs⟩
  obtain ⟨hports, hrsp⟩ := run_differInPorts k hs h h'
  obtain ⟨hbuf, htag, hvalid, hfault, hinputs⟩ := differInPorts_iff.1 hports
  exact ⟨hbuf, htag, hvalid, hfault, hinputs, fun hcmd => hrsp (.inr hcmd)⟩

/-! ### Reset -/

/-- MCLR in a running block (40_codec_ops.md R115). -/
theorem exec_mclr_of_running {s : State} (h : s.fault = 0) :
    exec .mclr s = .next { s.dropTag with buf := [], rsp := some ⟨0, 0⟩ } :=
  unlessHalted_of_running h _

/-- Settles O11: the reset buffer lists no byte, and MCLR leaves the same registers. -/
theorem resetStateValues : Obligations.ResetStateValues :=
  ⟨fun a _ => Memory.read_nil a, rfl, rfl, rfl, fun _ h => ⟨_, exec_mclr_of_running h, rfl, rfl, rfl, h⟩⟩

/-! ### The Field Table -/

/-- Every field begins where the one before it ends, the first at wire bit `o`. -/
def tilesFrom : Nat → List MessageField → Bool
  | _, [] => true
  | o, f :: rest => f.off == o && tilesFrom (o + f.len) rest

/-- In a table without gaps or overlaps, each wire bit of the message belongs to one field, and no other bit to any. -/
theorem length_filter_of_tilesFrom {t : List MessageField} {o : Nat} (h : tilesFrom o t = true) (b : Nat) :
    (t.filter fun f => decide (f.off ≤ b) && decide (b < f.off + f.len)).length =
      if o ≤ b ∧ b < o + (t.map MessageField.len).sum then 1 else 0 := by
  induction t generalizing o with
  | nil => rw [if_neg (by simp)]; rfl
  | cons f rest ih =>
    simp only [tilesFrom, Bool.and_eq_true, beq_iff_eq] at h
    obtain ⟨rfl, hrest⟩ := h
    rw [List.filter_cons, List.map_cons, List.sum_cons]
    by_cases hb : f.off ≤ b ∧ b < f.off + f.len
    · rw [if_pos (by simpa using hb), List.length_cons, ih hrest, if_neg (by omega), if_pos (by omega)]
    · rw [if_neg (by simpa using hb), ih hrest]
      exact if_congr (by omega) rfl rfl

/-- The standard fields fill the message from wire bit 0 on (10_state.md R26). -/
theorem fieldTable_tiles :
    tilesFrom 0 Config.fieldTable = true ∧ (Config.fieldTable.map MessageField.len).sum = 384 := by
  decide

/-- Settles O19: the entries are read off the table, and they tile the 384 wire bits. -/
theorem fieldTableIsTheStandardSet : Obligations.FieldTableIsTheStandardSet := by
  obtain ⟨htiles, hsum⟩ := fieldTable_tiles
  refine ⟨rfl, by decide, fun b hb => ?_⟩
  rw [length_filter_of_tilesFrom htiles, hsum, if_pos ⟨b.zero_le, by omega⟩]

end Sys2Proof.Machine
end

section
/-! SUPPORT. Proofs about the message buffer and its ports: `msg_out` shows BUF bit by bit and byte by byte, and MLOAD lays
`msg_in` out in the same way (20_memory.md R54). -/

namespace Sys2Proof.Machine

/-! ### The message ports -/

/-- A bit of `msg_out` is that bit of MSGINT. -/
theorem State.msgOut_getLsbD (s : State) (k : Nat) : s.msgOut.getLsbD k = s.msgInt.testBit k := by
  rw [← BitVec.testBit_toNat, s.msgOut_toNat]

/-- Byte `i` of `msg_out`, counted from the top, is byte `i` of the buffer. -/
theorem State.messageByte_msgOut (s : State) {i : Nat} (hi : i < 48) :
    messageByte s.msgOut i = s.buf.read i := by
  refine BitVec.eq_of_getLsbD_eq fun k hk => ?_
  have hpos : 376 - 8 * i = 8 * (48 - 1 - i) := by omega
  have hbit := s.buf.readBE_testBit 0 48 i k hi hk
  rw [Nat.zero_add] at hbit
  rw [messageByte, BitVec.getLsbD_extractLsb', decide_eq_true hk, Bool.true_and, s.msgOut_getLsbD, hpos]
  exact hbit

/-- MLOAD in a running block (40_codec_ops.md R116). -/
theorem exec_mload_of_running {s : State} (h : s.fault = 0) (tag : Data) :
    exec (.mload tag) s =
      .next { s.attachTag tag with buf := Memory.ofMessage s.msgIn Config.msgBytes, rsp := some ⟨0, 0⟩ } :=
  unlessHalted_of_running h _

/-- Settles O23: each byte of the buffer is read off the bits of MSGINT it stands in, and MLOAD stores those bits of `msg_in`. -/
theorem messagePortsShowTheBuffer : Obligations.MessagePortsShowTheBuffer := by
  intro s
  refine ⟨fun i hi => s.messageByte_msgOut hi, s.msgOut_toNat, fun b hb => ?_, fun hrun tag => ?_⟩
  · rw [s.msgOut_getLsbD, s.wireBit_eq b hb]
  · refine ⟨_, exec_mload_of_running hrun tag, fun i hi => ?_⟩
    exact (Memory.read_ofMessage s.msgIn Config.msgBytes i).trans (if_pos hi)

end Sys2Proof.Machine
end

section
/-! SUPPORT. Proofs about decoding: the legal words are exactly the words of commands, each row of opcode_table.json lists the
words of its mnemonic (30_encoding.md R84), and the illegal words are those of R88, which raise IllegalCommand. -/

namespace Sys2Proof

/-! ### The checks of unused fields (30_encoding.md R87) -/

theorem needsNoData_eq_ok {d : Data} {i j : Instr} : needsNoData d i = .ok j ↔ d = 0 ∧ i = j := by
  unfold needsNoData
  split <;> simp_all

theorem needsNoSel_eq_ok {sel : Sel} {r : Except Illegal Instr} {j : Instr} :
    needsNoSel sel r = .ok j ↔ sel = 0 ∧ r = .ok j := by
  unfold needsNoSel
  split <;> simp_all

theorem exists_needsNoData_eq_error {d : Data} {i : Instr} : (∃ e, needsNoData d i = .error e) ↔ d ≠ 0 := by
  unfold needsNoData
  split <;> simp_all

theorem exists_needsNoSel_eq_error {sel : Sel} {r : Except Illegal Instr} :
    (∃ e, needsNoSel sel r = .error e) ↔ sel ≠ 0 ∨ ∃ e, r = .error e := by
  unfold needsNoSel
  split <;> simp_all

/-! ### Legal words are the words of commands -/

/-- A word with `rsv = 0` is decoded from its other fields. -/
theorem decode_commandWord (op : BitVec 4) (sel : Sel) (d : Data) : decode (commandWord op sel d) = decodeOp op sel d := by
  simp [decode]

theorem decode_encode (i : Instr) : decode (encode i) = .ok i := by
  cases i <;> exact decode_commandWord _ _ _

/-- Legal fields make the word of the command they decode to. -/
theorem encode_of_decodeOp {op : BitVec 4} {sel : Sel} {d : Data} {i : Instr} (h : decodeOp op sel d = .ok i) :
    encode i = commandWord op sel d := by
  unfold decodeOp at h
  split at h
  case h_12 => cases h
  all_goals
    next hop =>
    obtain ⟨-, rfl⟩ := BitVec.toNat_eq_nat.1 hop
    revert h
    simp only [needsNoSel_eq_ok, needsNoData_eq_ok, Except.ok.injEq, and_imp]
    intros
    subst_vars
    rfl

theorem encode_of_decode {w : CmdWord} {i : Instr} (h : decode w = .ok i) : encode i = w := by
  unfold decode at h
  split at h
  · next hrsv => rw [encode_of_decodeOp h, commandWord_of_fields hrsv]
  · cases h

/-! ### The rows of opcode_table.json (30_encoding.md R84) -/

theorem wordOp_and (v w : CmdWord) : wordOp (v &&& w) = wordOp v &&& wordOp w := BitVec.extractLsb'_and

theorem wordRsv_and (v w : CmdWord) : wordRsv (v &&& w) = wordRsv v &&& wordRsv w := BitVec.extractLsb'_and

theorem wordSel_and (v w : CmdWord) : wordSel (v &&& w) = wordSel v &&& wordSel w := BitVec.extractLsb'_and

theorem wordData_and (v w : CmdWord) : wordData (v &&& w) = wordData v &&& wordData w := BitVec.extractLsb'_and

/-- A row's mask covers `op` and `rsv`, and its bits hold the row's operation code alone. -/
theorem opcodeRows_fields : ∀ r ∈ opcodeRows,
    wordOp r.mask = BitVec.allOnes 4 ∧ wordRsv r.mask = BitVec.allOnes 4 ∧ r.bits = commandWord (wordOp r.bits) 0 0 := by
  decide

/-- The fields of a word of a row. -/
theorem fields_of_matchesWord {r : OpcodeRow} (hr : r ∈ opcodeRows) {w : CmdWord} (h : r.matchesWord w = true) :
    w = commandWord (wordOp r.bits) (wordSel w) (wordData w) ∧ wordSel w &&& wordSel r.mask = 0 ∧
      wordData w &&& wordData r.mask = 0 := by
  obtain ⟨hop, hrsv, hbits⟩ := opcodeRows_fields r hr
  have hw : w &&& r.mask = commandWord (wordOp r.bits) 0 0 := hbits ▸ beq_iff_eq.1 h
  have hwop : wordOp w = wordOp r.bits := by
    rw [← wordOp_commandWord (wordOp r.bits) 0 0, ← hw, wordOp_and, hop, BitVec.and_allOnes]
  have hwrsv : wordRsv w = 0 := by
    rw [← wordRsv_commandWord (wordOp r.bits) 0 0, ← hw, wordRsv_and, hrsv, BitVec.and_allOnes]
  refine ⟨?_, ?_, ?_⟩
  · rw [← hwop, commandWord_of_fields hwrsv]
  · rw [← wordSel_and, hw, wordSel_commandWord]
  · rw [← wordData_and, hw, wordData_commandWord]

/-- A row's words are words of the commands with its mnemonic. -/
theorem exists_encode_of_matchesWord {r : OpcodeRow} (hr : r ∈ opcodeRows) {w : CmdWord} (h : r.matchesWord w = true) :
    ∃ i, mnemonic i = r.mnemonic ∧ encode i = w := by
  obtain ⟨hw, hsel, hdata⟩ := fields_of_matchesWord hr h
  have noSel (hm : wordSel r.mask = BitVec.allOnes 8) : wordSel w = 0 := by rwa [hm, BitVec.and_allOnes] at hsel
  have noData (hm : wordData r.mask = BitVec.allOnes 64) : wordData w = 0 := by rwa [hm, BitVec.and_allOnes] at hdata
  rw [hw]
  simp only [opcodeRows, List.mem_cons, List.not_mem_nil, or_false] at hr
  rcases hr with rfl | rfl | rfl | rfl | rfl | rfl | rfl | rfl | rfl | rfl | rfl
  · exact ⟨.getf (wordSel w), rfl, by rw [noData rfl]; rfl⟩
  · exact ⟨.setf (wordSel w) (wordData w), rfl, rfl⟩
  · exact ⟨.getb (wordSel w), rfl, by rw [noData rfl]; rfl⟩
  · exact ⟨.setb (wordSel w) (wordData w), rfl, rfl⟩
  · exact ⟨.mclr, rfl, by rw [noSel rfl, noData rfl]; rfl⟩
  · exact ⟨.mload (wordData w), rfl, by rw [noSel rfl]; rfl⟩
  · exact ⟨.tagset (wordData w), rfl, by rw [noSel rfl]; rfl⟩
  · exact ⟨.tagget, rfl, by rw [noSel rfl, noData rfl]; rfl⟩
  · exact ⟨.p2n (wordData w), rfl, by rw [noSel rfl]; rfl⟩
  · exact ⟨.n2p (wordData w), rfl, by rw [noSel rfl]; rfl⟩
  · exact ⟨.rdstat, rfl, by rw [noSel rfl, noData rfl]; rfl⟩

theorem opcodeRows_mnemonic_nodup : (opcodeRows.map OpcodeRow.mnemonic).Nodup := by decide

/-- Every command's word is one of the row that carries its mnemonic. -/
theorem tableRow_of_command (i : Instr) : Laws.TableRow.Statement i := by
  cases i with
  | getf sel => exact Laws.TableRow.getf sel
  | setf sel d => exact Laws.TableRow.setf sel d
  | getb sel => exact Laws.TableRow.getb sel
  | setb sel d => exact Laws.TableRow.setb sel d
  | mclr => exact Laws.TableRow.mclr
  | mload d => exact Laws.TableRow.mload d
  | tagset d => exact Laws.TableRow.tagset d
  | tagget => exact Laws.TableRow.tagget
  | p2n d => exact Laws.TableRow.p2n d
  | n2p d => exact Laws.TableRow.n2p d
  | rdstat => exact Laws.TableRow.rdstat

/-- A command's word is a word of the row with its mnemonic, and of no other row. -/
theorem matchesWord_encode {r : OpcodeRow} (hr : r ∈ opcodeRows) (i : Instr) :
    r.matchesWord (encode i) = (r.mnemonic == mnemonic i) := by
  rw [Bool.eq_iff_iff, beq_iff_eq]
  constructor
  · intro h
    obtain ⟨j, hj, hij⟩ := exists_encode_of_matchesWord hr h
    have : j = i := Except.ok.inj ((decode_encode j).symm.trans (hij ▸ decode_encode i))
    rw [← hj, this]
  · intro h
    obtain ⟨r', hr', hname, hmatch⟩ := tableRow_of_command i
    obtain rfl := List.inj_on_of_nodup_map opcodeRows_mnemonic_nodup hr hr' (h.trans hname.symm)
    exact beq_iff_eq.2 hmatch

/-- Exactly one row has the word of a command. -/
theorem mnemonics_of_encode (i : Instr) :
    (opcodeRows.filter fun r => r.matchesWord (encode i)).map OpcodeRow.mnemonic = [mnemonic i] := by
  obtain ⟨r, hr, hname, -⟩ := tableRow_of_command i
  have hmem : mnemonic i ∈ opcodeRows.map OpcodeRow.mnemonic := hname ▸ List.mem_map_of_mem hr
  have hfilter : (opcodeRows.filter fun r => r.matchesWord (encode i)) =
      opcodeRows.filter ((· == mnemonic i) ∘ OpcodeRow.mnemonic) :=
    List.filter_congr fun r hr => matchesWord_encode hr i
  rw [hfilter, ← List.filter_map, List.filter_beq, List.count_eq_one_of_mem opcodeRows_mnemonic_nodup hmem, List.replicate_one]

/-- Settles O2: a legal word is the word of its command, which is in one row only; a word in a row is the word of a command,
hence legal. -/
theorem decodeMatchesOpcodeTable : Obligations.DecodeMatchesOpcodeTable := by
  refine fun w => ⟨fun i h => ?_, fun e h => List.filter_eq_nil_iff.2 fun r hr hmatch => ?_⟩
  · obtain rfl := encode_of_decode h
    exact ⟨mnemonics_of_encode i, rfl⟩
  · obtain ⟨i, -, rfl⟩ := exists_encode_of_matchesWord hr hmatch
    rw [decode_encode] at h
    cases h

/-! ### Illegal words (30_encoding.md R88) -/

/-- The grounds on which R88 calls a word illegal, in its fields. -/
def IllegalFields (op rsv : BitVec 4) (sel : Sel) (d : Data) : Prop :=
  op = 0x0 ∨ op = 0xC ∨ op = 0xD ∨ op = 0xE ∨ op = 0xF ∨ rsv ≠ 0 ∨
  (d ≠ 0 ∧ (op = 0x1 ∨ op = 0x3 ∨ op = 0x5 ∨ op = 0x8 ∨ op = 0xB)) ∨
  (sel ≠ 0 ∧ (op = 0x5 ∨ op = 0x6 ∨ op = 0x7 ∨ op = 0x8 ∨ op = 0x9 ∨ op = 0xA ∨ op = 0xB))

/-- The reserved operation codes are those decoding has no arm for. -/
theorem reservedOp_of_no_arm {op : BitVec 4} (h : ¬ (1 ≤ op.toNat ∧ op.toNat ≤ 11)) :
    op = 0x0 ∨ op = 0xC ∨ op = 0xD ∨ op = 0xE ∨ op = 0xF := by
  revert op; decide

theorem decodeOp_eq_error_iff (op : BitVec 4) (sel : Sel) (d : Data) :
    (∃ e, decodeOp op sel d = .error e) ↔ IllegalFields op 0 sel d := by
  unfold decodeOp
  split
  case h_12 =>
    have hop : ¬ (1 ≤ op.toNat ∧ op.toNat ≤ 11) := by
      simp only [imp_false] at *
      omega
    refine iff_of_true ⟨_, rfl⟩ ?_
    rcases reservedOp_of_no_arm hop with rfl | rfl | rfl | rfl | rfl <;> simp [IllegalFields]
  all_goals
    next hop =>
    obtain ⟨-, rfl⟩ := BitVec.toNat_eq_nat.1 hop
    simp [exists_needsNoSel_eq_error, exists_needsNoData_eq_error, IllegalFields, or_comm]

/-- A word is illegal exactly on the grounds of R88. -/
theorem decode_eq_error_iff (w : CmdWord) :
    (∃ e, decode w = .error e) ↔ IllegalFields (wordOp w) (wordRsv w) (wordSel w) (wordData w) := by
  by_cases h : wordRsv w = 0
  · rw [h, ← decodeOp_eq_error_iff, decode, if_pos h]
  · rw [decode, if_neg h]
    exact iff_of_true ⟨_, rfl⟩ (.inr (.inr (.inr (.inr (.inr (.inl h))))))

end Sys2Proof

namespace Sys2Proof.Machine

/-- A presented word that decodes to no command is answered as an illegal word. -/
theorem step_of_illegal {s : State} {w : CmdWord} {m : MsgWord} {rest : List HostMove} {e : Illegal}
    (hin : s.inputs = .command w m :: rest) (hw : decode w = .error e) :
    step s = illegalWord (present { s with inputs := rest } m) := by
  simp [step, hin, hw]

/-- Settles O3: the grounds are read off the arms of decoding, and the step is the fault entry of an illegal word. -/
theorem illegalWordsRaiseIllegalCommand : Obligations.IllegalWordsRaiseIllegalCommand := by
  intro w op illegal
  have hiff : (∃ e, decode w = .error e) ↔ illegal := decode_eq_error_iff w
  refine ⟨hiff, fun hill s m rest hin hrun => ?_⟩
  obtain ⟨e, he⟩ := hiff.2 hill
  have hstep := step_of_illegal hin he
  rw [illegalWord_eq, present_fault, if_pos hrun] at hstep
  exact ⟨_, hstep, rfl, rfl, rfl, rfl, rfl⟩

end Sys2Proof.Machine
end

section
/-! SUPPORT. Proofs about the assembler's field names (30_encoding.md R91): each is read as its index in the Field Table, and no
other name is read as a field. -/

namespace Sys2Proof.Machine

/-- A name with an index is the name of the entry there. -/
theorem fieldTable_of_fieldIndex {name : String} {k : Nat} (h : fieldIndex name = some k) :
    ∃ f, Config.fieldTable[k]? = some f ∧ f.name = name := by
  obtain ⟨hk, hname, -⟩ := List.findIdx?_eq_some_iff_getElem.1 h
  exact ⟨_, List.getElem?_eq_getElem hk, beq_iff_eq.1 hname⟩

/-- A name of no entry has no index. -/
theorem fieldIndex_eq_none {name : String} (h : ∀ f ∈ Config.fieldTable, f.name ≠ name) : fieldIndex name = none :=
  List.findIdx?_eq_none_iff.2 fun f hf => beq_eq_false_iff_ne.2 (h f hf)

/-- An operand that is neither a number nor a name of the table is no field. -/
theorem readField_eq_none {operand : List Char} (hnum : readNumber operand = none)
    (hname : ∀ f ∈ Config.fieldTable, f.name.toList ≠ operand) : readField operand = none := by
  have : fieldIndex (String.ofList operand) = none :=
    fieldIndex_eq_none fun f hf heq => hname f hf (by rw [heq, String.toList_ofList])
  rw [readField, hnum, this]

/-- A GETF line needs an operand that is read as a field. -/
theorem readCommand_getf (operand : List Char) : readCommand "GETF" [operand] = (readField operand).map .getf := rfl

/-- A SETF line whose first operand is no field does not assemble. -/
theorem readCommand_setf_of_no_field {operand : List Char} (h : readField operand = none) (value : List Char) :
    readCommand "SETF" [operand, value] = none := by
  have : readCommand "SETF" [operand, value] = readTwo .setf readField [operand, value] := rfl
  rw [this, readTwo, h]

/-- Settles O51: the thirteen names are looked up in the table, and what is not found there is read as a number or not at all. -/
theorem fieldNamesAreIndices : Obligations.FieldNamesAreIndices := by
  refine ⟨by decide, fun _ _ h => fieldTable_of_fieldIndex h, fun operand hnum hname => ?_⟩
  have hfield := readField_eq_none hnum hname
  exact ⟨hfield, by rw [readCommand_getf, hfield]; rfl, readCommand_setf_of_no_field hfield⟩

end Sys2Proof.Machine
end

section
/-! SUPPORT. Proofs about the bit geometry (40_codec_ops.md R110), the bits a field access reads and writes, and a field inside
one byte (R123). -/

namespace Sys2Proof.Machine

/-! ### The geometry -/

/-- The touched bytes end at the exclusive end. -/
theorem geomStart_add_geomBytes (o l : Nat) : geomStart o + geomBytes o l = geomStop o l := by
  unfold geomBytes geomStart geomStop
  omega

/-- The field ends `trail` bits before the touched bytes do. -/
theorem eight_mul_geomStop (o l : Nat) : 8 * (geomStart o + geomBytes o l) = o + l + geomTrail o l := by
  rw [geomStart_add_geomBytes]
  unfold geomTrail geomStop
  omega

theorem eight_mul_geomStart_le (o : Nat) : 8 * geomStart o ≤ o := Nat.mul_div_le o 8

theorem geomLead_le (o : Nat) : geomLead o ≤ 7 := by
  unfold geomLead
  omega

theorem geomTrail_le (o l : Nat) : geomTrail o l ≤ 7 := by
  unfold geomTrail geomStop
  omega

/-- `trail` is what the range lacks to a multiple of 8. -/
theorem geomTrail_eq_emod (o l : Nat) : (geomTrail o l : ℤ) = (-((o : ℤ) + l)) % 8 := by
  unfold geomTrail geomStop
  omega

/-- The first byte's mask, in both its forms. -/
theorem startMask_eq {lead : Nat} (h : lead ≤ 7) : 0xFF >>> lead = 2 ^ (8 - lead) - 1 := by
  have : ∀ k ≤ 7, 0xFF >>> k = 2 ^ (8 - k) - 1 := by decide
  exact this lead h

/-- The last byte's mask, in both its forms. -/
theorem endMask_eq {trail : Nat} (h : trail ≤ 7) : (0xFF <<< trail) &&& 0xFF = 256 - 2 ^ trail := by
  have : ∀ k ≤ 7, (0xFF <<< k) &&& 0xFF = 256 - 2 ^ k := by decide
  exact this trail h

/-- Settles O20: each output is its definition, the masks are checked for the eight shifts, and the rest is arithmetic from
`8 * n = lead + l + trail`. -/
theorem bitGeometry : Obligations.BitGeometry := by
  intro o l hl ho
  obtain ⟨hpos, hstop, hbits⟩ := geom_inside hl ho
  have hlead := geomLead_le o
  have htrail := geomTrail_le o l
  rw [geomStart_add_geomBytes] at hstop
  refine ⟨rfl, rfl, rfl, hpos, fun hlen => ?_, hstop, rfl, rfl, geomTrail_eq_emod o l, hlead, htrail, hbits,
    startMask_eq hlead, rfl, endMask_eq htrail, rfl, fun hlen => ?_⟩
  · show geomBytes o l ≤ 9
    omega
  · show geomBytes o l = 9 ↔ 64 < geomLead o + l
    omega

/-! ### The bits of a field -/

/-- A wire bit of the touched bytes, in their big-endian integer. -/
theorem State.readBE_testBit_wireBit (s : State) {addr n b : Nat} (h1 : 8 * addr ≤ b) (h2 : b < 8 * (addr + n)) :
    (s.buf.readBE addr n).testBit (8 * (addr + n) - 1 - b) = s.wireBit b := by
  have hbit := s.buf.readBE_testBit addr n (b / 8 - addr) (7 - b % 8) (by omega) (by omega)
  rwa [show 8 * (n - 1 - (b / 8 - addr)) + (7 - b % 8) = 8 * (addr + n) - 1 - b by omega,
    show addr + (b / 8 - addr) = b / 8 by omega] at hbit

/-- Inserting replaces a slice of the word. -/
theorem insertField_eq_replace {W n lead l trail v : Nat} (h : 8 * n = lead + l + trail) :
    insertField W n lead trail v = W - (W / 2 ^ trail % 2 ^ l) * 2 ^ trail + v * 2 ^ trail := by
  have hhigh := Nat.div_add_mod' W (2 ^ (trail + l))
  have hlow := Nat.mod_add_div (W % 2 ^ (trail + l)) (2 ^ trail)
  rw [pow_add, Nat.mod_mul_right_mod, Nat.mod_mul_right_div_self, ← pow_add,
    Nat.mul_comm (2 ^ trail)] at hlow
  rw [insertField_eq h]
  omega

/-- The bits of the word with the field replaced: the field's are the value's, the others stay. -/
theorem insertField_testBit {W n lead l trail v : Nat} (h : 8 * n = lead + l + trail) (hv : v < 2 ^ l) (k : Nat) :
    (insertField W n lead trail v).testBit k = if trail ≤ k ∧ k < trail + l then v.testBit (k - trail) else W.testBit k := by
  rw [insertField_eq_replace h]
  exact testBit_replace_slice W trail l v k hv

/-- The `trail` low bits of the word are kept. -/
theorem insertField_low {W n lead l trail v : Nat} (h : 8 * n = lead + l + trail) :
    insertField W n lead trail v % 2 ^ trail = W % 2 ^ trail := by
  rw [insertField_eq h, pow_add, ← Nat.mul_assoc, Nat.mul_right_comm, ← Nat.add_mul, Nat.mul_add_mod_self_right, Nat.mod_mod]

/-- The `lead` high bits of the word are kept. -/
theorem insertField_high {W n lead l trail v : Nat} (h : 8 * n = lead + l + trail) (hv : v < 2 ^ l) :
    insertField W n lead trail v / 2 ^ (trail + l) = W / 2 ^ (trail + l) := by
  refine Nat.eq_of_testBit_eq fun k => ?_
  rw [Nat.testBit_div_two_pow, Nat.testBit_div_two_pow, insertField_testBit h hv, if_neg (by omega)]

/-- A field read gives the field's wire bits, the first one most significant. -/
theorem fieldRead_testBit {s : State} {o l x : Nat} (hl : 1 ≤ l) (ho : o + l ≤ 384) (h : fieldRead s o l = some x) (k : Nat) :
    x.testBit k = (decide (k < l) && s.wireBit (o + l - 1 - k)) := by
  have hstart := eight_mul_geomStart_le o
  have hstop := eight_mul_geomStop o l
  rw [fieldRead_eq s hl ho] at h
  obtain rfl := Option.some.inj h
  rw [Nat.testBit_mod_two_pow, Nat.testBit_div_two_pow]
  by_cases hk : k < l
  · rw [← s.readBE_testBit_wireBit (addr := geomStart o) (n := geomBytes o l) (by omega) (by omega)]
    congr 2
    omega
  · simp [hk]

/-- Blocks that agree on a field's wire bits read the same value. -/
theorem fieldRead_congr {s t : State} {o l : Nat} (hl : 1 ≤ l) (ho : o + l ≤ 384)
    (h : ∀ b, o ≤ b → b < o + l → t.wireBit b = s.wireBit b) : fieldRead t o l = fieldRead s o l := by
  have hs := fieldRead_eq s hl ho
  have ht := fieldRead_eq t hl ho
  rw [hs, ht]
  refine congrArg some (Nat.eq_of_testBit_eq fun k => ?_)
  rw [fieldRead_testBit hl ho ht, fieldRead_testBit hl ho hs]
  by_cases hk : k < l
  · rw [h _ (by omega) (by omega)]
  · simp [hk]

/-- A field write leaves every wire bit outside the field as it was. -/
theorem fieldWrite_wireBit_outside {s t : State} {o l v b : Nat} (hl : 1 ≤ l) (ho : o + l ≤ 384) (hv : v < 2 ^ l)
    (h : fieldWrite s o l v = some t) (hb : b < o ∨ o + l ≤ b) : t.wireBit b = s.wireBit b := by
  obtain ⟨-, -, hbits⟩ := geom_inside hl ho
  have hstart := eight_mul_geomStart_le o
  have hstop := eight_mul_geomStop o l
  rw [fieldWrite_eq s hl ho hv] at h
  obtain rfl := Option.some.inj h
  by_cases hin : 8 * geomStart o ≤ b ∧ b < 8 * (geomStart o + geomBytes o l)
  · obtain ⟨h1, h2⟩ := hin
    rw [← State.readBE_testBit_wireBit _ h1 h2,
      Memory.readBE_writeBE _ _ _ _ (insertField_lt hbits (Memory.readBE_lt _ _ _) hv), insertField_testBit hbits hv,
      if_neg (by omega), s.readBE_testBit_wireBit h1 h2]
  · rw [State.wireBit, Memory.read_writeBE_outside _ _ _ _ _ (by omega)]
    rfl

/-- A field write is read back. -/
theorem fieldRead_of_fieldWrite {s t : State} {o l v : Nat} (hl : 1 ≤ l) (ho : o + l ≤ 384) (hv : v < 2 ^ l)
    (h : fieldWrite s o l v = some t) : fieldRead t o l = some v := by
  obtain ⟨-, -, hbits⟩ := geom_inside hl ho
  rw [fieldWrite_eq s hl ho hv] at h
  obtain rfl := Option.some.inj h
  rw [fieldRead_eq _ hl ho, Memory.readBE_writeBE _ _ _ _ (insertField_lt hbits (Memory.readBE_lt _ _ _) hv),
    insertField_value hbits hv]

/-! ### A field inside one byte -/

/-- A range of one byte is that byte. -/
theorem Memory.readBE_one (m : Memory) (a : Nat) : m.readBE a 1 = (m.read a).toNat := by
  simp [Memory.readBE]

/-- Writing a range of one byte is writing that byte. -/
theorem Memory.writeBE_one (m : Memory) (a v : Nat) : m.writeBE a 1 v = m.write a (BitVec.ofNat 8 v) := rfl

/-- The bits of one byte that both masks keep. -/
theorem ownedBits_eq {lead l trail : Nat} (h : 8 = lead + l + trail) (hl : 1 ≤ l) :
    (0xFF >>> lead) &&& ((0xFF <<< trail) &&& 0xFF) = (2 ^ l - 1) <<< trail := by
  have hall : ∀ i < 8, ∀ k < 8, i + k < 8 → (0xFF >>> i) &&& ((0xFF <<< k) &&& 0xFF) = (2 ^ (8 - i - k) - 1) <<< k := by decide
  rw [hall lead (by omega) trail (by omega) (by omega), show 8 - lead - trail = l by omega]

/-- In one byte, inserting clears the owned bits and puts the shifted value in their place. -/
theorem ofNat_insertField_one {W lead l trail v : Nat} (h : 8 = lead + l + trail) (hv : v < 2 ^ l) :
    BitVec.ofNat 8 (insertField W 1 lead trail v) =
      BitVec.ofNat 8 ((W &&& (255 - (2 ^ l - 1) <<< trail)) ||| (v <<< trail)) := by
  refine BitVec.eq_of_getLsbD_eq fun k hk => ?_
  have howned : ((2 ^ l - 1) <<< trail).testBit k = decide (trail ≤ k ∧ k < trail + l) := by
    rw [Nat.testBit_shiftLeft, Nat.testBit_two_pow_sub_one, ← Bool.decide_and]
    exact decide_eq_decide.2 (by omega)
  have hfit : (2 ^ l - 1) <<< trail < 2 ^ 8 := by
    have : 2 ^ l - 1 < 2 ^ l := Nat.sub_lt (by positivity) one_pos
    calc (2 ^ l - 1) <<< trail = (2 ^ l - 1) * 2 ^ trail := Nat.shiftLeft_eq _ _
      _ < 2 ^ l * 2 ^ trail := Nat.mul_lt_mul_of_pos_right this (by positivity)
      _ = 2 ^ (l + trail) := (pow_add 2 l trail).symm
      _ ≤ 2 ^ 8 := Nat.pow_le_pow_right two_pos (by omega)
  have hkept : (255 - (2 ^ l - 1) <<< trail).testBit k = !decide (trail ≤ k ∧ k < trail + l) := by
    rw [show 255 - (2 ^ l - 1) <<< trail = 2 ^ 8 - ((2 ^ l - 1) <<< trail + 1) by omega, Nat.testBit_two_pow_sub_succ hfit,
      howned, decide_eq_true hk, Bool.true_and]
  rw [BitVec.getLsbD_ofNat, BitVec.getLsbD_ofNat, insertField_testBit (n := 1) h hv, Nat.testBit_or, Nat.testBit_and, hkept,
    Nat.testBit_shiftLeft]
  by_cases hin : trail ≤ k ∧ k < trail + l
  · simp [hin]
  · rw [if_neg hin]
    by_cases hlow : trail ≤ k
    · have hzero : v.testBit (k - trail) = false :=
        Nat.testBit_lt_two_pow (hv.trans_le (Nat.pow_le_pow_right two_pos (by omega)))
      simp [hin, hzero]
    · simp [hlow]

/-- Settles O25: the range of touched bytes is one byte, whose masks leave the field's bits. -/
theorem singleByteFields : Obligations.SingleByteFields := by
  intro s o l v hl ho hn hv
  have hone : geomBytes o l = 1 := hn
  obtain ⟨-, -, hbits⟩ := geom_inside hl ho
  rw [hone] at hbits
  have howned := ownedBits_eq hbits hl
  refine ⟨howned, ?_, ?_⟩
  · show fieldRead s o l = some (((s.buf.read (geomStart o)).toNat % 2 ^ (8 - geomLead o)) >>> geomTrail o l)
    rw [fieldRead_eq s hl ho, hone, Memory.readBE_one, Nat.shiftRight_eq_div_pow,
      show 8 - geomLead o = geomTrail o l + l by omega, pow_add, Nat.mod_mul_right_div_self]
  · show fieldWrite s o l v = some { s with buf := s.buf.write (geomStart o) (BitVec.ofNat 8
      (((s.buf.read (geomStart o)).toNat &&& (255 - ((0xFF >>> geomLead o) &&& ((0xFF <<< geomTrail o l) &&& 0xFF)))) |||
        (v <<< geomTrail o l))) }
    rw [howned, ← ofNat_insertField_one hbits hv, fieldWrite_eq s hl ho hv, hone, Memory.readBE_one, Memory.writeBE_one]

end Sys2Proof.Machine
end

section
/-! SUPPORT. Proofs about GETF and SETF (40_codec_ops.md R111, R112, R120, R121): what each answers in a running block, by the
index and the value, and the round trip and the frame from the bits a field access reads and writes. -/

namespace Sys2Proof.Machine

/-! ### The answers -/

/-- GETF of a field in a running block. -/
theorem exec_getf_of_field {s : State} {sel : Sel} {f : MessageField} {v : Nat} (hs : s.fault = 0) (hf : fieldAt sel = some f)
    (hv : fieldRead s f.off f.len = some v) :
    exec (.getf sel) s = .next { s with rsp := some ⟨0, BitVec.ofNat 64 v⟩ } := by
  show execGetf sel s = _
  rw [execGetf, unlessHalted_of_running hs, hf]
  simp only [hv, respondOk_eq]

/-- GETF of an index that names no field. -/
theorem exec_getf_of_no_field {s : State} {sel : Sel} (hs : s.fault = 0) (hf : fieldAt sel = none) :
    exec (.getf sel) s = .next { s with fault := 1, rsp := some ⟨1, 0⟩ } := by
  show execGetf sel s = _
  rw [execGetf, unlessHalted_of_running hs, hf]
  rfl

/-- SETF of a value that fits, in a running block. -/
theorem exec_setf_of_field {s t : State} {sel : Sel} {wdata : Data} {f : MessageField} (hs : s.fault = 0)
    (hf : fieldAt sel = some f) (hv : wdata.toNat < 2 ^ f.len) (hw : fieldWrite s f.off f.len wdata.toNat = some t) :
    exec (.setf sel wdata) s = .next { t with rsp := some ⟨0, 0⟩ } := by
  show execSetf sel wdata s = _
  rw [execSetf, unlessHalted_of_running hs, hf]
  simp only [if_neg (Nat.not_le.2 hv), hw, respondOk_eq]

/-- SETF of a value too wide for its field. -/
theorem exec_setf_of_wide {s : State} {sel : Sel} {wdata : Data} {f : MessageField} (hs : s.fault = 0)
    (hf : fieldAt sel = some f) (hv : 2 ^ f.len ≤ wdata.toNat) :
    exec (.setf sel wdata) s = .next { s with fault := 2, rsp := some ⟨2, 0⟩ } := by
  show execSetf sel wdata s = _
  rw [execSetf, unlessHalted_of_running hs, hf]
  exact if_pos hv

/-- SETF of an index that names no field, whatever the value. -/
theorem exec_setf_of_no_field {s : State} {sel : Sel} (hs : s.fault = 0) (hf : fieldAt sel = none) (wdata : Data) :
    exec (.setf sel wdata) s = .next { s with fault := 1, rsp := some ⟨1, 0⟩ } := by
  show execSetf sel wdata s = _
  rw [execSetf, unlessHalted_of_running hs, hf]
  rfl

/-- SETF answers OK only from a running block, for a field and a value that fits, having written the field. -/
theorem exec_setf_eq_ok {s t : State} {sel : Sel} {wdata : Data} (h : exec (.setf sel wdata) s = .next t)
    (hok : t.rsp = some ⟨0, 0⟩) :
    s.fault = 0 ∧ ∃ f u, fieldAt sel = some f ∧ wdata.toNat < 2 ^ f.len ∧ fieldWrite s f.off f.len wdata.toNat = some u ∧
      t = { u with rsp := some ⟨0, 0⟩ } := by
  have not_code {u : State} {c : BitVec 4} (he : exec (.setf sel wdata) s = .next u) (hr : u.rsp = some ⟨c, 0⟩)
      (hc : c ≠ 0) : False := by
    obtain rfl := Host.Outcome.next.inj (he.symm.trans h)
    obtain ⟨rfl, -⟩ := Response.mk.inj (Option.some.inj (hr.symm.trans hok))
    exact hc rfl
  by_cases hs : s.fault = 0
  case neg => exact (not_code (unlessHalted_of_halted hs _) rfl (by decide)).elim
  cases hf : fieldAt sel with
  | none => exact (not_code (exec_setf_of_no_field hs hf wdata) rfl (by decide)).elim
  | some f =>
    by_cases hv : wdata.toNat < 2 ^ f.len
    · obtain ⟨hl, -, ho⟩ := fieldAt_bounds hf
      have hw := fieldWrite_eq s hl ho hv
      exact ⟨hs, f, _, rfl, hv, hw, Host.Outcome.next.inj (h.symm.trans (exec_setf_of_field hs hf hv hw))⟩
    · exact (not_code (exec_setf_of_wide hs hf (Nat.le_of_not_lt hv)) rfl (by decide)).elim

/-- Writing a field leaves FAULT alone. -/
theorem fieldWrite_fault {s t : State} {o l v : Nat} (h : fieldWrite s o l v = some t) : t.fault = s.fault := by
  obtain ⟨w, -, rfl⟩ := fieldWrite_eq_some h
  rfl

/-! ### The obligations -/

/-- Settles O26: the value of R111 is what `extractField` takes from the touched bytes, `len` bits of them. -/
theorem getfReadsTheField : Obligations.GetfReadsTheField := by
  intro s sel hs
  refine ⟨fun f hf => ?_, fun hsel => exec_getf_of_no_field hs (fieldAt_eq_none.2 hsel)⟩
  obtain ⟨hl, -, ho⟩ := fieldAt_bounds hf
  obtain ⟨-, -, hbits⟩ := geom_inside hl ho
  intro start n lead trail v
  have htrail : trail = geomTrail f.off f.len := Nat.sub_eq_of_eq_add' (eight_mul_geomStop f.off f.len)
  have hv : v = s.buf.readBE start n / 2 ^ geomTrail f.off f.len % 2 ^ f.len := by
    rw [← extractField_eq hbits, ← htrail]
    rfl
  rw [hv]
  exact ⟨Nat.mod_lt _ (by positivity), exec_getf_of_field hs hf (fieldRead_eq s hl ho)⟩

/-- Settles O27: the word of R112 is what `insertField` makes of the touched bytes, which keeps the bits around the field. -/
theorem setfWritesTheField : Obligations.SetfWritesTheField := by
  intro s sel wdata hs
  refine ⟨fun f hf => ?_, fun hsel => exec_setf_of_no_field hs (fieldAt_eq_none.2 hsel) wdata⟩
  obtain ⟨hl, -, ho⟩ := fieldAt_bounds hf
  obtain ⟨-, -, hbits⟩ := geom_inside hl ho
  intro start n lead trail W W'
  have htrail : trail = geomTrail f.off f.len := Nat.sub_eq_of_eq_add' (eight_mul_geomStop f.off f.len)
  have hW' : W' = insertField W n lead (geomTrail f.off f.len) wdata.toNat := by
    rw [← htrail]
    rfl
  refine ⟨fun hv => ?_, exec_setf_of_wide hs hf⟩
  rw [hW', htrail]
  exact ⟨exec_setf_of_field hs hf hv (fieldWrite_eq s hl ho hv), insertField_lt hbits (Memory.readBE_lt _ _ _) hv,
    insertField_low hbits, insertField_value hbits hv, insertField_high hbits hv,
    fun a ha => Memory.read_writeBE_outside _ _ _ _ _ ha⟩

/-- Settles O29: the field written reads as the value. -/
theorem setfThenGetf : Obligations.SetfThenGetf := by
  intro s t sel wdata h hok
  obtain ⟨hs, f, u, hf, hv, hw, rfl⟩ := exec_setf_eq_ok h hok
  obtain ⟨hl, -, ho⟩ := fieldAt_bounds hf
  have hrun : u.fault = 0 := (fieldWrite_fault hw).trans hs
  have hread : fieldRead u f.off f.len = some wdata.toNat := fieldRead_of_fieldWrite hl ho hv hw
  have hget := exec_getf_of_field (s := { u with rsp := some ⟨0, 0⟩ }) hrun hf hread
  rwa [BitVec.ofNat_toNat, BitVec.setWidth_eq] at hget

/-- Two fields of the table share no wire bit. -/
theorem fieldAt_disjoint {i j : Sel} {f g : MessageField} (hne : j ≠ i) (hf : fieldAt i = some f) (hg : fieldAt j = some g) :
    g.off + g.len ≤ f.off ∨ f.off + f.len ≤ g.off := by
  have hordered : Config.fieldTable.Pairwise fun a b => a.off + a.len ≤ b.off := by decide
  obtain ⟨hi, rfl⟩ := List.getElem?_eq_some_iff.1 hf
  obtain ⟨hj, rfl⟩ := List.getElem?_eq_some_iff.1 hg
  rcases Nat.lt_or_gt_of_ne (mt BitVec.eq_of_toNat_eq hne) with hlt | hgt
  · exact .inl (List.pairwise_iff_getElem.1 hordered _ _ hj hi hlt)
  · exact .inr (List.pairwise_iff_getElem.1 hordered _ _ hi hj hgt)

/-- Settles O30: the write changes the field's wire bits only, and another field has none of them. -/
theorem noBitBleed : Obligations.NoBitBleed := by
  intro s t sel j wdata h hok
  obtain ⟨hs, f, u, hf, hv, hw, rfl⟩ := exec_setf_eq_ok h hok
  obtain ⟨hl, -, ho⟩ := fieldAt_bounds hf
  have hrun : u.fault = 0 := (fieldWrite_fault hw).trans hs
  have hframe : ∀ b, b < f.off ∨ f.off + f.len ≤ b → u.wireBit b = s.wireBit b :=
    fun b hb => fieldWrite_wireBit_outside hl ho hv hw hb
  refine ⟨fun hne hj => ?_, fun f' hf' => ?_⟩
  · obtain ⟨g, hg⟩ := Option.ne_none_iff_exists'.1 (mt fieldAt_eq_none.1 (Nat.not_le.2 hj))
    obtain ⟨hlg, -, hog⟩ := fieldAt_bounds hg
    have hdisj := fieldAt_disjoint hne hf hg
    have hsame : fieldRead u g.off g.len = fieldRead s g.off g.len :=
      fieldRead_congr hlg hog fun b h1 h2 => hframe b (by omega)
    have hread := fieldRead_eq s hlg hog
    exact ⟨_, exec_getf_of_field hs hg hread, exec_getf_of_field hrun hg (hsame.trans hread)⟩
  · obtain rfl : f = f' := Option.some.inj (hf.symm.trans hf')
    exact hframe

end Sys2Proof.Machine
end

section
/-! SUPPORT. Proofs about GETB and SETB (40_codec_ops.md R113, R114): what each answers in a running block, by the index and the
value. -/

namespace Sys2Proof.Machine

/-- GETB of a byte of the buffer in a running block. -/
theorem exec_getb_of_byte {s : State} {sel : Sel} (hs : s.fault = 0) (hsel : sel.toNat < 48) :
    exec (.getb sel) s = .next { s with rsp := some ⟨0, (s.buf.read sel.toNat).setWidth 64⟩ } := by
  have hread : byteRead s sel.toNat = some (s.buf.read sel.toNat).toNat := by
    rw [byteRead, bufRead_inside s le_rfl hsel, Memory.readBE_one]
  show execGetb sel s = _
  rw [execGetb, unlessHalted_of_running hs, if_neg (Nat.not_le.2 hsel)]
  simp only [hread, respondOk_eq, BitVec.ofNat_toNat]

/-- GETB of an index outside the buffer. -/
theorem exec_getb_outside {s : State} {sel : Sel} (hs : s.fault = 0) (hsel : 48 ≤ sel.toNat) :
    exec (.getb sel) s = .next { s with fault := 3, rsp := some ⟨3, 0⟩ } := by
  show execGetb sel s = _
  rw [execGetb, unlessHalted_of_running hs, if_pos hsel, raise_eq]

/-- SETB of a byte of the buffer in a running block. -/
theorem exec_setb_of_byte {s : State} {sel : Sel} {wdata : Data} (hs : s.fault = 0) (hsel : sel.toNat < 48)
    (hv : wdata.toNat < 256) :
    exec (.setb sel wdata) s =
      .next { s with buf := s.buf.write sel.toNat (wdata.setWidth 8), rsp := some ⟨0, 0⟩ } := by
  have hwrite : byteWrite s sel.toNat wdata.toNat = some { s with buf := s.buf.write sel.toNat (wdata.setWidth 8) } := by
    rw [byteWrite, bufWrite_inside s le_rfl hsel hv, Memory.writeBE_one, BitVec.ofNat_toNat]
  show execSetb sel wdata s = _
  rw [execSetb, unlessHalted_of_running hs, if_neg (Nat.not_le.2 hsel), if_neg (Nat.not_le.2 hv)]
  simp only [hwrite, respondOk_eq]

/-- SETB of a value wider than a byte. -/
theorem exec_setb_of_wide {s : State} {sel : Sel} {wdata : Data} (hs : s.fault = 0) (hsel : sel.toNat < 48)
    (hv : 256 ≤ wdata.toNat) :
    exec (.setb sel wdata) s = .next { s with fault := 2, rsp := some ⟨2, 0⟩ } := by
  show execSetb sel wdata s = _
  rw [execSetb, unlessHalted_of_running hs, if_neg (Nat.not_le.2 hsel), if_pos hv, raise_eq]

/-- SETB of an index outside the buffer, whatever the value. -/
theorem exec_setb_outside {s : State} {sel : Sel} (hs : s.fault = 0) (hsel : 48 ≤ sel.toNat) (wdata : Data) :
    exec (.setb sel wdata) s = .next { s with fault := 3, rsp := some ⟨3, 0⟩ } := by
  show execSetb sel wdata s = _
  rw [execSetb, unlessHalted_of_running hs, if_pos hsel, raise_eq]

/-- Settles O32: the index decides which of GETB's two answers is given. -/
theorem getbReadsTheByte : Obligations.GetbReadsTheByte :=
  fun _ _ hs => ⟨exec_getb_of_byte hs, exec_getb_outside hs⟩

/-- Settles O33: a write of one byte is read back there and nowhere else. -/
theorem setbWritesTheByte : Obligations.SetbWritesTheByte :=
  fun _ _ wdata hs =>
    ⟨fun hsel hv => ⟨_, exec_setb_of_byte hs hsel hv, rfl, Memory.read_write_same _ _ _,
      fun _ ha => Memory.read_write_ne _ _ ha⟩, exec_setb_of_wide hs, fun hsel => exec_setb_outside hs hsel wdata⟩

end Sys2Proof.Machine
end

section
/-! SUPPORT. Proofs about the whole-message and tag commands (40_codec_ops.md R115 to R118): an empty buffer reads as 0
everywhere, and TAG stands through every move that does not write it (10_state.md R21). -/

namespace Sys2Proof.Machine

/-! ### The whole message -/

/-- An empty buffer holds 0 in every range. -/
@[simp] theorem Memory.readBE_nil (a n : Nat) : Memory.readBE [] a n = 0 := by
  induction n with
  | zero => rfl
  | succ n ih => simp [Memory.readBE, ih]

/-- Settles O35: every field and every byte of an empty buffer is 0, and the gate stops a halted block. -/
theorem mclrClearsTheMessage : Obligations.MclrClearsTheMessage := by
  refine fun s => ⟨fun hs => ⟨_, exec_mclr_of_running hs, rfl, fun i _ => Memory.read_nil i, fun sel hsel => ?_,
    fun sel hsel => exec_getb_of_byte hs hsel⟩, fun hs => unlessHalted_of_halted hs _⟩
  obtain ⟨f, hf⟩ := Option.ne_none_iff_exists'.1 (mt fieldAt_eq_none.1 (Nat.not_le.2 hsel))
  obtain ⟨hl, -, ho⟩ := fieldAt_bounds hf
  refine exec_getf_of_field (v := 0) hs hf ?_
  rw [fieldRead_eq _ hl ho, Memory.readBE_nil, Nat.zero_div, Nat.zero_mod]

/-- Settles O36: each byte of the loaded buffer is cut out of `msg_in`. -/
theorem mloadLoadsTheMessage : Obligations.MloadLoadsTheMessage :=
  fun s tag hs => ⟨_, exec_mload_of_running hs tag, rfl, fun i hi =>
    (Memory.read_ofMessage s.msgIn Config.msgBytes i).trans (if_pos hi)⟩

/-! ### The tag -/

/-- TAGSET in a running block. -/
theorem exec_tagset_of_running {s : State} (hs : s.fault = 0) (tag : Data) :
    exec (.tagset tag) s = .next { s with tag := tag, tagValid := true, rsp := some ⟨0, 0⟩ } :=
  unlessHalted_of_running hs _

/-- TAGGET in a running block. -/
theorem exec_tagget_of_running {s : State} (hs : s.fault = 0) :
    exec .tagget s = .next { s with rsp := some ⟨0, s.tag⟩ } :=
  unlessHalted_of_running hs _

/-- Settles O37: the gate lets TAGSET through, and TAGSET has no check of its own. -/
theorem tagsetAttachesTheTag : Obligations.TagsetAttachesTheTag :=
  fun _ tag hs => exec_tagset_of_running hs tag

/-- The two states hold the same tag, or both none. -/
def SameTag (s t : State) : Prop := t.tag = s.tag ∧ t.tagValid = s.tagValid

theorem SameTag.trans {s t u : State} (h : SameTag s t) (h' : SameTag t u) : SameTag s u :=
  ⟨h'.1.trans h.1, h'.2.trans h.2⟩

/-- An answer leaves the tag alone. -/
theorem SameTag.of_respond {s t : State} {c : BitVec 4} {d : Data} (h : respond s c d = .next t) : SameTag s t := by
  cases h
  exact ⟨rfl, rfl⟩

/-- Fault entry leaves the tag alone. -/
theorem SameTag.of_raise {s t : State} {c : BitVec 4} (h : raise c s = .next t) : SameTag s t := by
  cases h
  exact ⟨rfl, rfl⟩

/-- The gate leaves the tag alone, if the command behind it does. -/
theorem SameTag.of_gate {s t : State} {r : Host.Outcome State Fault Refusal} (h : unlessHalted s r = .next t)
    (hr : r = .next t → SameTag s t) : SameTag s t := by
  rcases unlessHalted_eq_next h with ⟨-, rfl⟩ | ⟨-, h⟩
  · exact ⟨rfl, rfl⟩
  · exact hr h

/-- A field write leaves the tag alone. -/
theorem SameTag.of_fieldWrite {s t : State} {o l v : Nat} (h : fieldWrite s o l v = some t) : SameTag s t := by
  obtain ⟨w, -, rfl⟩ := fieldWrite_eq_some h
  exact ⟨rfl, rfl⟩

/-- A byte write leaves the tag alone. -/
theorem SameTag.of_byteWrite {s t : State} {i v : Nat} (h : byteWrite s i v = some t) : SameTag s t := by
  obtain ⟨-, -, -, rfl⟩ := bufWrite_eq_some h
  exact ⟨rfl, rfl⟩

/-- Every command but MCLR, MLOAD and TAGSET leaves the tag alone (10_state.md R21, R22). -/
theorem exec_sameTag {i : Instr} {s t : State} (h : exec i s = .next t) (hclr : i ≠ .mclr) (hload : ∀ x, i ≠ .mload x)
    (hset : ∀ x, i ≠ .tagset x) : SameTag s t := by
  cases i with
  | mclr => exact absurd rfl hclr
  | mload x => exact absurd rfl (hload x)
  | tagset x => exact absurd rfl (hset x)
  | setf sel wdata =>
    refine .of_gate h fun h => ?_
    split at h
    · exact .of_raise h
    · split at h
      · exact .of_raise h
      · split at h
        · cases h
        · next hw => exact (SameTag.of_fieldWrite hw).trans (.of_respond h)
  | setb sel wdata =>
    refine .of_gate h fun h => ?_
    split at h
    · exact .of_raise h
    · split at h
      · exact .of_raise h
      · split at h
        · cases h
        · next hw => exact (SameTag.of_byteWrite hw).trans (.of_respond h)
  | getf sel | getb sel =>
    refine .of_gate h fun h => ?_
    split at h
    · exact .of_raise h
    · split at h
      · cases h
      · exact .of_respond h
  | p2n wdata =>
    refine .of_gate h fun h => ?_
    split at h
    · exact .of_raise h
    · exact .of_respond h
  | n2p wdata =>
    refine .of_gate h fun h => ?_
    split at h
    · cases h
    · exact .of_respond h
  | tagget => exact .of_gate h .of_respond
  | rdstat => exact .of_respond h

/-- A word that does not write the tag decodes to none of the three commands that do. -/
theorem ne_of_not_writesTag {w : CmdWord} {m : MsgWord} {i : Instr} (h : writesTag (.command w m) = false)
    (hi : decode w = .ok i) : i ≠ .mclr ∧ (∀ x, i ≠ .mload x) ∧ ∀ x, i ≠ .tagset x := by
  refine ⟨?_, fun x => ?_, fun x => ?_⟩ <;>
  · rintro rfl
    simp [writesTag, hi] at h

/-- A step leaves the tag alone unless the move it takes writes it. -/
theorem step_sameTag {s t : State} (h : step s = .next t) (hm : ∀ m ∈ s.inputs.head?, writesTag m = false) : SameTag s t := by
  rcases step_cases h with ⟨-, rfl⟩ | ⟨rest, hi, rfl⟩ | ⟨w, m, rest, i, hi, hd, he⟩ | ⟨w, m, rest, e, hi, -, he⟩
  · exact ⟨rfl, rfl⟩
  · exact absurd (hm .reset (by rw [hi]; rfl)) (by decide)
  · obtain ⟨hclr, hload, hset⟩ := ne_of_not_writesTag (hm (.command w m) (by rw [hi]; rfl)) hd
    exact exec_sameTag (s := present { s with inputs := rest } m) he hclr hload hset
  · exact SameTag.of_gate (s := present { s with inputs := rest } m) he .of_raise

/-- A run leaves the tag alone if none of the moves it takes writes it. -/
theorem run_sameTag {k : Nat} {s t : State} (h : Host.Core.run core k s = .next t)
    (hm : ∀ m ∈ s.inputs.take k, writesTag m = false) : SameTag s t := by
  induction k generalizing s with
  | zero =>
    cases h
    exact ⟨rfl, rfl⟩
  | succ k ih =>
    obtain ⟨u, hu, hrun⟩ := run_succ_eq_next h
    refine (step_sameTag hu fun m hhead => hm m ?_).trans (ih hrun fun m hmem => hm m ?_)
    · exact List.mem_of_mem_head? (by rwa [List.head?_take, if_neg k.succ_ne_zero])
    · rw [step_inputs hu] at hmem
      exact List.mem_of_mem_tail (by rwa [List.tail_take_eq_take_tail])

/-- Settles O38: TAGGET answers TAG, which TAGSET and MLOAD set and a run of other moves keeps. -/
theorem taggetReadsTheTag : Obligations.TaggetReadsTheTag := by
  refine fun s hs => ⟨exec_tagget_of_running hs, fun hinv hvalid => ?_, fun tag k t u hset hrun hmoves hu => ?_⟩
  · obtain ⟨-, -, htag, -⟩ := hinv
    rw [exec_tagget_of_running hs, htag hvalid]
  · obtain ⟨htag, hinputs⟩ : t.tag = tag ∧ t.inputs = s.inputs := by
      rcases hset with h | h
      · rw [exec_tagset_of_running hs] at h
        cases h
        exact ⟨rfl, rfl⟩
      · rw [exec_mload_of_running hs] at h
        cases h
        exact ⟨rfl, rfl⟩
    obtain ⟨hkept, -⟩ := run_sameTag hrun (hinputs ▸ hmoves)
    rw [exec_tagget_of_running hu, hkept, htag]

end Sys2Proof.Machine
end

section
/-! SUPPORT. Proofs about the timestamp operations (41_timestamp_ops.md): rounding to the nearest integer (R145), and what the
conversions answer in a running block (R147, R148). -/

namespace Sys2Proof.Machine

/-! ### Rounding to the nearest integer -/

/-- The fractional part of a fraction is the remainder of the integer division over the denominator. -/
theorem div_sub_floor_eq (num : ℤ) {den : ℕ} (hd : 0 < den) :
    (num : ℚ) / den - ⌊(num : ℚ) / den⌋ = ((num % den : ℤ) : ℚ) / den := by
  have hd' : (den : ℚ) ≠ 0 := by positivity
  rw [Rat.floor_intCast_div_natCast, Int.emod_def]
  push_cast
  field_simp

/-- The machine's rounding of a fraction is the rule's rounding of its value. -/
theorem rhe_eq_rheQ (num : ℤ) {den : ℕ} (hd : 0 < den) : rhe num den = rheQ ((num : ℚ) / den) := by
  have hd' : (0 : ℚ) < den := by positivity
  have above : ((num % den : ℤ) : ℚ) / den > 1 / 2 ↔ (den : ℤ) < 2 * (num % den) := by
    rw [gt_iff_lt, div_lt_div_iff₀ two_pos hd', one_mul, mul_comm]
    exact_mod_cast Iff.rfl
  have half : ((num % den : ℤ) : ℚ) / den = 1 / 2 ↔ 2 * (num % den) = (den : ℤ) := by
    rw [div_eq_div_iff hd'.ne' two_ne_zero, one_mul, mul_comm]
    exact_mod_cast Iff.rfl
  rw [rheQ, div_sub_floor_eq num hd, Rat.floor_intCast_div_natCast]
  simp only [rhe, above, half]

/-- Rounding moves a rational by at most 1/2. -/
theorem abs_rheQ_sub_le (q : ℚ) : |(rheQ q : ℚ) - q| ≤ 1 / 2 := by
  have lower := Int.floor_le q
  have upper := Int.lt_floor_add_one q
  rw [rheQ, abs_le]
  split
  · next hup =>
    have hr : 1 / 2 ≤ q - ⌊q⌋ := hup.elim le_of_lt fun h => h.1.ge
    push_cast
    constructor <;> linarith
  · next hdown =>
    have hr : q - ⌊q⌋ ≤ 1 / 2 := not_lt.1 fun h => hdown (.inl h)
    constructor <;> linarith

/-- An even translation moves the floor by an even integer, so it keeps the remainder and the parity that break a tie. -/
theorem rheQ_add_two_mul (q : ℚ) (n : ℤ) : rheQ (q + 2 * n) = rheQ q + 2 * n := by
  have hfloor : ⌊q + 2 * n⌋ = ⌊q⌋ + 2 * n := by exact_mod_cast Int.floor_add_intCast q (2 * n)
  have hrem : q + 2 * n - (⌊q⌋ + 2 * n : ℤ) = q - ⌊q⌋ := by push_cast; ring
  have hparity : (⌊q⌋ + 2 * n) % 2 = ⌊q⌋ % 2 := Int.add_mul_emod_self_left _ _ _
  rw [rheQ, rheQ, hfloor, hrem, hparity]
  split
  · exact add_right_comm _ _ _
  · rfl

/-- Settles O41: the machine's rounding is the rule's, which is within 1/2 and commutes with even translations. -/
theorem roundHalfEven : Obligations.RoundHalfEven := fun num den hd => by
  rw [rhe_eq_rheQ num hd]
  exact ⟨rfl, abs_rheQ_sub_le _, rheQ_add_two_mul _⟩

/-! ### The answers -/

/-- P2N of a time in the range of the timestamp, in a running block. -/
theorem exec_p2n_of_some {s : State} {wdata x : Data} (hs : s.fault = 0) (hx : posixToNtp wdata = some x) :
    exec (.p2n wdata) s = .next { s with rsp := some ⟨0, x⟩ } := by
  show execP2n wdata s = _
  rw [execP2n, unlessHalted_of_running hs, hx]
  exact respondOk_eq s x

/-- P2N of a pattern that has no timestamp. -/
theorem exec_p2n_of_none {s : State} {wdata : Data} (hs : s.fault = 0) (hx : posixToNtp wdata = none) :
    exec (.p2n wdata) s = .next { s with fault := 5, rsp := some ⟨5, 0⟩ } := by
  show execP2n wdata s = _
  rw [execP2n, unlessHalted_of_running hs, hx]
  exact raise_eq faultConvRange s

/-- N2P answers only where the rounding is defined. -/
theorem exec_n2p_eq_next {s t : State} {wdata : Data} (hs : s.fault = 0) (h : exec (.n2p wdata) s = .next t) :
    ∃ x, ntpToPosix wdata = some x ∧ t = { s with rsp := some ⟨0, x⟩ } := by
  replace h : execN2p wdata s = .next t := h
  rw [execN2p, unlessHalted_of_running hs] at h
  split at h
  · cases h
  · next x hx => exact ⟨x, hx, (Host.Outcome.next.inj h).symm⟩

/-- The response of P2N is settled by the converted time alone. -/
theorem exec_p2n_rsp {s t : State} {wdata : Data} (hs : s.fault = 0) (h : exec (.p2n wdata) s = .next t) :
    t.rsp = some ((posixToNtp wdata).elim ⟨5, 0⟩ (⟨0, ·⟩)) := by
  cases hx : posixToNtp wdata with
  | none =>
    obtain rfl := Host.Outcome.next.inj ((exec_p2n_of_none hs hx).symm.trans h)
    rfl
  | some x =>
    obtain rfl := Host.Outcome.next.inj ((exec_p2n_of_some hs hx).symm.trans h)
    rfl

/-- Settles O48: each response is a function of `wdata` that no register enters. -/
theorem conversionsAreDeterministic : Obligations.ConversionsAreDeterministic := by
  refine fun s s' t t' wdata hs hs' => ⟨fun h h' => ?_, fun h h' => ?_⟩
  · rw [exec_p2n_rsp hs h, exec_p2n_rsp hs' h']
  · obtain ⟨x, hx, rfl⟩ := exec_n2p_eq_next hs h
    obtain ⟨x', hx', rfl⟩ := exec_n2p_eq_next hs' h'
    rw [Option.some.inj (hx.symm.trans hx')]

end Sys2Proof.Machine
end

section
/-! SUPPORT. Proofs about the system command RDSTAT (43_system_ops.md R200): the status view as a number, the one legal word
with its operation code, and the halted gate that every other command passes first. -/

namespace Sys2Proof.Machine

/-- The status view as the number R200 gives: TAG_VALID stands at bit 8, above the four bits of FAULT and four zero bits. -/
theorem State.stat_eq (s : State) : s.stat = BitVec.ofNat 64 (s.tagValid.toNat * 256 + s.fault.toNat) := by
  have layout : ∀ (v : Bool) (f : BitVec 4),
      (0 : BitVec 55) ++ BitVec.ofBool v ++ (0 : BitVec 4) ++ f = BitVec.ofNat 64 (v.toNat * 256 + f.toNat) := by decide
  exact layout s.tagValid s.fault

/-- RDSTAT passes no gate, so its answer is the same in a halted block. -/
theorem exec_rdstat (s : State) : exec .rdstat s = .next { s with rsp := some ⟨0, s.stat⟩ } := respondOk_eq s s.stat

/-- Every command but RDSTAT stands behind the halted gate. -/
theorem exec_of_halted {i : Instr} {s : State} (hs : s.fault ≠ 0) (hi : i ≠ .rdstat) :
    exec i s = .next { s with rsp := some ⟨6, 0⟩ } := by
  cases i with
  | rdstat => exact absurd rfl hi
  | getf _ | setf _ _ | getb _ | setb _ _ | mclr | mload _ | tagset _ | tagget | p2n _ | n2p _ =>
    exact unlessHalted_of_halted hs _

/-- No other command has the operation code of RDSTAT. -/
theorem eq_rdstat_of_wordOp_encode {i : Instr} (h : wordOp (encode i) = 0xB) : i = .rdstat := by
  cases i with
  | rdstat => rfl
  | getf _ | setf _ _ | getb _ | setb _ _ | mclr | mload _ | tagset _ | tagget | p2n _ | n2p _ =>
    rw [encode, wordOp_commandWord] at h
    exact absurd h (by decide)

/-- Settles O39: a legal word is the word of the command it decodes to, so with this operation code it is RDSTAT's only word. -/
theorem rdstatReadsTheStatus : Obligations.RdstatReadsTheStatus := by
  refine ⟨fun s => by rw [exec_rdstat, State.stat_eq], fun w hop => ?_, fun _ _ => exec_of_halted⟩
  cases hw : decode w with
  | ok i =>
    obtain rfl := encode_of_decode hw
    obtain rfl := eq_rdstat_of_wordOp_encode hop
    exact .inl ⟨rfl, rfl⟩
  | error e =>
    refine .inr ⟨⟨e, rfl⟩, ?_⟩
    rintro rfl
    cases hw.symm.trans (decode_encode .rdstat)

end Sys2Proof.Machine
end

section
/-! SUPPORT. Proofs about faults and the halt (60_exceptions.md R221 to R223): what a halted block does with a presented word,
what fault entry writes, and the status of every command a running block performs. That N2P never raises (R148) rests on its
rounding being defined for every timestamp. -/

namespace Sys2Proof.Machine

/-! ### The halt and fault entry -/

/-- A presented word that decodes is performed as its command. -/
theorem step_of_legal {s : State} {w : CmdWord} {m : MsgWord} {rest : List HostMove} {i : Instr}
    (hin : s.inputs = .command w m :: rest) (hw : decode w = .ok i) :
    step s = exec i (present { s with inputs := rest } m) := by
  simp [step, hin, hw]

/-- A halted block takes any word but a legal RDSTAT and answers Halted. -/
theorem step_of_halted {s : State} {w : CmdWord} {m : MsgWord} {rest : List HostMove}
    (hin : s.inputs = .command w m :: rest) (hs : s.fault ≠ 0) (hw : decode w ≠ .ok .rdstat) :
    step s = .next { s with inputs := rest, msgIn := m, rsp := some ⟨6, 0⟩ } := by
  cases hd : decode w with
  | ok i =>
    have hi : i ≠ .rdstat := fun h => hw (h ▸ hd)
    exact (step_of_legal hin hd).trans (exec_of_halted hs hi)
  | error e => exact (step_of_illegal hin hd).trans ((illegalWord_eq _).trans (if_neg hs))

/-- Settles O13: a legal word stops at its command's gate and an illegal one at the gate of IllegalCommand. -/
theorem haltedBlockAnswersHalted : Obligations.HaltedBlockAnswersHalted :=
  fun _ _ _ _ hin hs hw => ⟨_, step_of_halted hin hs hw, rfl, rfl, rfl, rfl, rfl, rfl⟩

/-- Settles O15: of the three things a command can answer, only fault entry changes FAULT, and only in a running block. -/
theorem faultEntryWritesOnlyFault : Obligations.FaultEntryWritesOnlyFault := by
  intro i s t h
  rcases exec_cases h with ⟨hs, rfl⟩ | ⟨hs, c, -, hc, rfl⟩ | ⟨b, x, v, d, rfl, -⟩
  · exact ⟨fun hrun => absurd hrun hs, fun _ => rfl⟩
  · exact ⟨fun _ _ => ⟨hc, rfl⟩, fun hhalt => absurd hs hhalt⟩
  · exact ⟨fun hrun hfault => absurd hrun hfault, fun _ => rfl⟩

/-! ### N2P always answers -/

/-- The exponent is at most one below the difference of the two binary lengths. -/
theorem le_floorLog2 (a den : Nat) : (a.log2 : ℤ) - den.log2 - 1 ≤ floorLog2 a den := by
  simp only [floorLog2]
  split <;> omega

/-- The rounding is defined below the overflow bound, when the denominator is too short for a non-zero value to be subnormal. -/
theorem exists_rne64_eq_some {num : ℤ} {den : Nat} (hden : den.log2 ≤ 1021)
    (hnum : num.natAbs < (2 ^ 1024 - 2 ^ 970) * den) : ∃ x, rne64 num den = some x := by
  have hexp : ¬ floorLog2 num.natAbs den < -1022 := by
    have := le_floorLog2 num.natAbs den
    omega
  simp only [rne64, if_neg (not_or.2 ⟨hexp, Nat.not_le.2 hnum⟩)]
  split
  · exact ⟨_, rfl⟩
  · split <;> exact ⟨_, rfl⟩

/-- Every timestamp has a POSIX time: its distance from the epoch is below 2^64 units of 2^-32 seconds. -/
theorem exists_ntpToPosix_eq_some (t : Data) : ∃ x, ntpToPosix t = some x := by
  have hden : (2 ^ 32 : Nat).log2 ≤ 1021 := by rw [Nat.log2_two_pow]; norm_num
  have hbound : 2 ^ 64 ≤ (2 ^ 1024 - 2 ^ 970) * 2 ^ 32 := by decide +kernel
  refine exists_rne64_eq_some hden (lt_of_lt_of_le ?_ hbound)
  rw [Int.ediv_mul_add_emod]
  have ht := t.isLt
  simp only [Config.epochK, Config.epochOffset]
  omega

/-- N2P in a running block. -/
theorem exists_exec_n2p_of_running {s : State} (hs : s.fault = 0) (wdata : Data) :
    ∃ x, exec (.n2p wdata) s = .next { s with rsp := some ⟨0, x⟩ } := by
  obtain ⟨x, hx⟩ := exists_ntpToPosix_eq_some wdata
  refine ⟨x, ?_⟩
  show execN2p wdata s = _
  rw [execN2p, unlessHalted_of_running hs, hx]
  exact respondOk_eq s x

/-! ### The status of a command -/

/-- The outcome is a next state whose response has the status. -/
def AnswersStatus (o : Host.Outcome State Fault Refusal) (status : BitVec 4) : Prop :=
  ∃ t r, o = .next t ∧ t.rsp = some r ∧ r.status = status

theorem AnswersStatus.of_next {o : Host.Outcome State Fault Refusal} {t : State} {status : BitVec 4} {d : Data}
    (h : o = .next t) (hrsp : t.rsp = some ⟨status, d⟩) : AnswersStatus o status :=
  ⟨_, _, h, hrsp, rfl⟩

theorem exec_getf_status {s : State} (hs : s.fault = 0) (sel : Sel) :
    AnswersStatus (exec (.getf sel) s) (if 13 ≤ sel.toNat then 1 else 0) := by
  split
  · next hsel => exact .of_next (exec_getf_of_no_field hs (fieldAt_eq_none.2 hsel)) rfl
  · next hsel =>
    obtain ⟨f, hf⟩ := Option.ne_none_iff_exists'.1 (mt fieldAt_eq_none.1 hsel)
    obtain ⟨hl, -, ho⟩ := fieldAt_bounds hf
    exact .of_next (exec_getf_of_field hs hf (fieldRead_eq s hl ho)) rfl

theorem exec_setf_status_of_field {s : State} {sel : Sel} {f : MessageField} (hs : s.fault = 0)
    (hf : fieldAt sel = some f) (wdata : Data) :
    AnswersStatus (exec (.setf sel wdata) s) (if 2 ^ f.len ≤ wdata.toNat then 2 else 0) := by
  split
  · next hv => exact .of_next (exec_setf_of_wide hs hf hv) rfl
  · next hv =>
    obtain ⟨hl, -, ho⟩ := fieldAt_bounds hf
    have hfits := Nat.lt_of_not_le hv
    exact .of_next (exec_setf_of_field hs hf hfits (fieldWrite_eq s hl ho hfits)) rfl

theorem exec_getb_status {s : State} (hs : s.fault = 0) (sel : Sel) :
    AnswersStatus (exec (.getb sel) s) (if 48 ≤ sel.toNat then 3 else 0) := by
  split
  · next hsel => exact .of_next (exec_getb_outside hs hsel) rfl
  · next hsel => exact .of_next (exec_getb_of_byte hs (Nat.lt_of_not_le hsel)) rfl

theorem exec_setb_status {s : State} (hs : s.fault = 0) (sel : Sel) (wdata : Data) :
    AnswersStatus (exec (.setb sel wdata) s)
      (if 48 ≤ sel.toNat then 3 else if 256 ≤ wdata.toNat then 2 else 0) := by
  split
  · next hsel => exact .of_next (exec_setb_outside hs hsel wdata) rfl
  · next hsel =>
    have hbyte := Nat.lt_of_not_le hsel
    split
    · next hv => exact .of_next (exec_setb_of_wide hs hbyte hv) rfl
    · next hv => exact .of_next (exec_setb_of_byte hs hbyte (Nat.lt_of_not_le hv)) rfl

theorem exec_p2n_status {s : State} (hs : s.fault = 0) (wdata : Data) :
    AnswersStatus (exec (.p2n wdata) s) (if posixToNtp wdata = none then 5 else 0) := by
  split
  · next hx => exact .of_next (exec_p2n_of_none hs hx) rfl
  · next hx =>
    obtain ⟨x, hx⟩ := Option.ne_none_iff_exists'.1 hx
    exact .of_next (exec_p2n_of_some hs hx) rfl

/-- Settles O14: the gate comes first, then decoding, then the checks of the command that was decoded, in its own order. -/
theorem statusPriority : Obligations.StatusPriority := by
  intro s w m rest hin
  show AnswersStatus (step s) _
  by_cases hhalt : s.fault ≠ 0 ∧ decode w ≠ .ok .rdstat
  case pos =>
    rw [if_pos hhalt]
    exact .of_next (step_of_halted hin hhalt.1 hhalt.2) rfl
  have running (hw : decode w ≠ .ok .rdstat) : s.fault = 0 := not_not.1 fun hs => hhalt ⟨hs, hw⟩
  rw [if_neg hhalt]
  cases hw : decode w with
  | error e =>
    have hs := running (by rw [hw]; nofun)
    exact .of_next ((step_of_illegal hin hw).trans ((illegalWord_eq _).trans (if_pos hs))) rfl
  | ok i =>
    rw [step_of_legal hin hw]
    have hs (hi : i ≠ .rdstat) : (present { s with inputs := rest } m).fault = 0 :=
      running fun h => hi (Except.ok.inj (hw.symm.trans h))
    cases i with
    | getf sel => exact exec_getf_status (hs nofun) sel
    | setf sel wdata =>
      dsimp only
      cases hf : Config.fieldTable[sel.toNat]? with
      | none => exact .of_next (exec_setf_of_no_field (hs nofun) hf wdata) rfl
      | some f => exact exec_setf_status_of_field (hs nofun) hf wdata
    | getb sel => exact exec_getb_status (hs nofun) sel
    | setb sel wdata => exact exec_setb_status (hs nofun) sel wdata
    | mclr => exact .of_next (exec_mclr_of_running (hs nofun)) rfl
    | mload tag => exact .of_next (exec_mload_of_running (hs nofun) tag) rfl
    | tagset tag => exact .of_next (exec_tagset_of_running (hs nofun) tag) rfl
    | tagget => exact .of_next (exec_tagget_of_running (hs nofun)) rfl
    | p2n wdata => exact exec_p2n_status (hs nofun) wdata
    | n2p wdata =>
      obtain ⟨x, hx⟩ := exists_exec_n2p_of_running (hs nofun) wdata
      exact .of_next hx rfl
    | rdstat => exact .of_next (exec_rdstat _) rfl

end Sys2Proof.Machine
end

section
/-! SUPPORT. Proofs about single commands and steps: the round trip of encoding (30_encoding.md R82), that every presented word is
answered (70_reset_and_hazards.md R250), the invariant of the block, and what a command leaves alone, may read and repeats
(10_state.md R21, R32; 20_memory.md R59). -/

namespace Sys2Proof.Machine

/-! ### Words and steps -/

/-- Settles O1: decoding reads the fields that encoding wrote, command by command. -/
theorem decodeOfEncode : Obligations.DecodeOfEncode := decode_encode

/-- Settles O4: the six words are closed terms, which decoding evaluates. -/
theorem writtenWordsDecode : Obligations.WrittenWordsDecode := by
  unfold Obligations.WrittenWordsDecode
  decide

/-- Settles O5: the step's own arm for a legal word. -/
theorem stepPerformsTheDecodedCommand : Obligations.StepPerformsTheDecodedCommand :=
  fun _ _ _ _ _ hin hw => step_of_legal hin hw

theorem step_of_idle {s : State} (h : s.inputs = []) : step s = .next s := by
  simp [step, idle, h]

theorem step_of_reset {s : State} {rest : List HostMove} (h : s.inputs = .reset :: rest) :
    step s = .next (assertReset { s with inputs := rest }) := by
  simp [step, h]

/-- Settles O6: with no move in the queue the step is the idle one. -/
theorem idleBlockKeepsItsState : Obligations.IdleBlockKeepsItsState := fun _ => step_of_idle

/-- Every step gives a next state: R221 lists a status for every presented word. -/
theorem exists_step_eq_next (s : State) : ∃ t, step s = .next t := by
  cases hin : s.inputs with
  | nil => exact ⟨s, step_of_idle hin⟩
  | cons move rest =>
    cases move with
    | reset => exact ⟨_, step_of_reset hin⟩
    | command w m =>
      obtain ⟨t, -, ht, -⟩ := statusPriority s w m rest hin
      exact ⟨t, ht⟩

/-- Settles O7: each presented word has a status, and no step that answers one reads the old response. -/
theorem everyCommandIsAnswered : Obligations.EveryCommandIsAnswered := by
  intro s
  obtain ⟨t, ht⟩ := exists_step_eq_next s
  refine ⟨t, ht, fun w m rest hin => ?_⟩
  obtain ⟨t', r, ht', hr, -⟩ := statusPriority s w m rest hin
  obtain rfl := Host.Outcome.next.inj (ht.symm.trans ht')
  exact ⟨r, hr, fun old => (step_ports_of_command hin old s.msgIn).trans ht⟩

/-! ### The invariant -/

/-- A code is a legal status, and its response carries no data. -/
theorem legal_of_code {c : BitVec 4} (h : c ≤ 6) : ∀ r, some (⟨c, 0⟩ : Response) = some r → r.Legal := by
  rintro r ⟨⟩
  exact ⟨h, fun _ => rfl⟩

/-- OK is a legal status, with any data. -/
theorem legal_of_ok (d : Data) : ∀ r, some (⟨0, d⟩ : Response) = some r → r.Legal := by
  rintro r ⟨⟩
  have hok : (0 : BitVec 4) ≤ 6 := by decide
  exact ⟨hok, fun h => absurd rfl h⟩

/-- A command keeps the invariant, whichever of the three things it answers. -/
theorem exec_keeps_inv {i : Instr} {s t : State} (hs : s.Inv) (h : exec i s = .next t) : t.Inv := by
  obtain ⟨hbuf, hfault, htag, -⟩ := hs
  rcases exec_cases h with ⟨-, rfl⟩ | ⟨-, c, -, hc, rfl⟩ | ⟨b, x, v, d, rfl, hb, hx⟩
  · exact ⟨hbuf, hfault, htag, legal_of_code (c := 6) (by decide)⟩
  · have hlegal : c ≤ 6 := BitVec.le_trans hc (by decide)
    exact ⟨hbuf, hc, htag, legal_of_code hlegal⟩
  · exact ⟨hb hbuf, hfault, hx htag, legal_of_ok d⟩

/-- An illegal word keeps the invariant. -/
theorem illegalWord_keeps_inv {s t : State} (hs : s.Inv) (h : illegalWord s = .next t) : t.Inv := by
  obtain ⟨hbuf, hfault, htag, -⟩ := hs
  have hcode : (4 : BitVec 4) ≤ 5 := by decide
  rw [illegalWord_eq] at h
  split at h <;> cases h
  · exact ⟨hbuf, hcode, htag, legal_of_code (c := 4) (by decide)⟩
  · exact ⟨hbuf, hfault, htag, legal_of_code (c := 6) (by decide)⟩

/-- The code 0 that reset leaves in FAULT is in range. -/
theorem reset_fault_le : State.reset.fault ≤ 5 := by decide

/-- Settles O8: the invariant speaks of no move and no message, so taking a move keeps it, and each answer to the move does. -/
theorem stepKeepsInvariant : Obligations.StepKeepsInvariant := by
  intro s t hs h
  rcases step_cases h with ⟨-, rfl⟩ | ⟨rest, -, rfl⟩ | ⟨w, m, rest, i, -, -, he⟩ | ⟨w, m, rest, e, -, -, he⟩
  · exact hs
  · obtain ⟨-, -, -, hrsp⟩ := hs
    exact ⟨Memory.wf_nil, reset_fault_le, fun _ => rfl, hrsp⟩
  · exact exec_keeps_inv (s := present { s with inputs := rest } m) hs he
  · exact illegalWord_keeps_inv (s := present { s with inputs := rest } m) hs he

/-- Settles O9: no cell, no fault, no tag and no response. -/
theorem resetMeetsInvariant : Obligations.ResetMeetsInvariant :=
  ⟨State.reset_buf_wf, reset_fault_le, fun _ => rfl, nofun⟩

/-! ### Reset and FAULT -/

/-- No command and no illegal word takes FAULT back to 0 (60_exceptions.md R224). -/
theorem step_fault_ne_zero {s t : State} (h : step s = .next t) (hs : s.fault ≠ 0) (hreset : s.inputs.head? ≠ some .reset) :
    t.fault ≠ 0 := by
  rcases step_cases h with ⟨-, rfl⟩ | ⟨rest, hin, -⟩ | ⟨w, m, rest, i, -, -, he⟩ | ⟨w, m, rest, e, -, -, he⟩
  · exact hs
  · exact absurd (by rw [hin]; rfl) hreset
  · obtain ⟨-, hkeep⟩ := faultEntryWritesOnlyFault i _ t he
    rw [hkeep hs]
    exact hs
  · rw [illegalWord_eq, present_fault, if_neg hs] at he
    cases he
    exact hs

/-- Settles O12: `rst` clears by definition, and of the other moves none clears FAULT. -/
theorem onlyResetClearsFault : Obligations.OnlyResetClearsFault := by
  refine ⟨fun s rest hin => ⟨_, step_of_reset hin, fun a _ => Memory.read_nil a, rfl, rfl, rfl, rfl⟩, fun s t hs h ht => ?_⟩
  by_contra hno
  refine step_fault_ne_zero h hs (fun hhead => hno ?_) ht
  exact ⟨_, List.eq_cons_of_mem_head? hhead⟩

/-! ### What a command leaves alone -/

/-- The six commands that write no register (20_memory.md R59). -/
def IsRead (i : Instr) : Prop :=
  (∃ k, i = .getf k) ∨ (∃ k, i = .getb k) ∨ i = .tagget ∨ i = .rdstat ∨ (∃ x, i = .p2n x) ∨ (∃ x, i = .n2p x)

/-- In a running block a read enters a fault or answers OK, and changes nothing else. -/
theorem exec_read_of_running {i : Instr} {s t : State} (hi : IsRead i) (hs : s.fault = 0) (h : exec i s = .next t) :
    (∃ c, c ≠ 0 ∧ t = { s with fault := c, rsp := some ⟨c, 0⟩ }) ∨ ∃ d, t = { s with rsp := some ⟨0, d⟩ } := by
  have faults {c : BitVec 4} (hc : c ≠ 0) (he : exec i s = .next { s with fault := c, rsp := some ⟨c, 0⟩ }) :
      (∃ c, c ≠ 0 ∧ t = { s with fault := c, rsp := some ⟨c, 0⟩ }) ∨ ∃ d, t = { s with rsp := some ⟨0, d⟩ } :=
    .inl ⟨c, hc, Host.Outcome.next.inj (h.symm.trans he)⟩
  have answers {d : Data} (he : exec i s = .next { s with rsp := some ⟨0, d⟩ }) :
      (∃ c, c ≠ 0 ∧ t = { s with fault := c, rsp := some ⟨c, 0⟩ }) ∨ ∃ d, t = { s with rsp := some ⟨0, d⟩ } :=
    .inr ⟨d, Host.Outcome.next.inj (h.symm.trans he)⟩
  rcases hi with ⟨k, rfl⟩ | ⟨k, rfl⟩ | rfl | rfl | ⟨x, rfl⟩ | ⟨x, rfl⟩
  · cases hf : fieldAt k with
    | none => exact faults (by decide) (exec_getf_of_no_field hs hf)
    | some f =>
      obtain ⟨hl, -, ho⟩ := fieldAt_bounds hf
      exact answers (exec_getf_of_field hs hf (fieldRead_eq s hl ho))
  · rcases Nat.lt_or_ge k.toNat 48 with hk | hk
    · exact answers (exec_getb_of_byte hs hk)
    · exact faults (by decide) (exec_getb_outside hs hk)
  · exact answers (exec_tagget_of_running hs)
  · exact answers (exec_rdstat s)
  · cases hx : posixToNtp x with
    | none => exact faults (by decide) (exec_p2n_of_none hs hx)
    | some t => exact answers (exec_p2n_of_some hs hx)
  · obtain ⟨y, hy⟩ := exists_exec_n2p_of_running hs x
    exact answers hy

/-- A read leaves BUF alone, halted or not. -/
theorem exec_read_buf {i : Instr} {s t : State} (hi : IsRead i) (h : exec i s = .next t) : t.buf = s.buf := by
  by_cases hs : s.fault = 0
  · rcases exec_read_of_running hi hs h with ⟨c, -, rfl⟩ | ⟨d, rfl⟩ <;> rfl
  · by_cases hr : i = .rdstat
    · subst hr
      cases h
      rfl
    · rw [exec_of_halted hs hr] at h
      cases h
      rfl

/-- Only the four message writers change BUF. -/
theorem exec_buf {i : Instr} {s t : State} (h : exec i s = .next t) (hsetf : ∀ k v, i ≠ .setf k v)
    (hsetb : ∀ k v, i ≠ .setb k v) (hclr : i ≠ .mclr) (hload : ∀ x, i ≠ .mload x) : t.buf = s.buf := by
  cases i with
  | setf k v => exact absurd rfl (hsetf k v)
  | setb k v => exact absurd rfl (hsetb k v)
  | mclr => exact absurd rfl hclr
  | mload x => exact absurd rfl (hload x)
  | tagset x =>
    rcases unlessHalted_eq_next h with ⟨-, rfl⟩ | ⟨-, h⟩
    · rfl
    · cases h
      rfl
  | getf _ | getb _ | tagget | rdstat | p2n _ | n2p _ => exact exec_read_buf (by simp [IsRead]) h

/-- The message port is an input: no command drives it. -/
theorem exec_msgIn {i : Instr} {s t : State} (h : exec i s = .next t) : t.msgIn = s.msgIn := by
  rcases exec_cases h with ⟨-, rfl⟩ | ⟨-, c, -, -, rfl⟩ | ⟨b, x, v, d, rfl, -⟩ <;> rfl

/-- A command answered OK leaves FAULT alone: a fault answers its code, which is not 0. -/
theorem exec_fault_of_ok {i : Instr} {s t : State} {d : Data} (h : exec i s = .next t) (hok : t.rsp = some ⟨0, d⟩) :
    t.fault = s.fault := by
  rcases exec_cases h with ⟨-, rfl⟩ | ⟨-, c, hc, -, rfl⟩ | ⟨b, x, v, d, rfl, -⟩
  · rfl
  · cases hok
    exact absurd rfl hc
  · rfl

/-- Settles O16: BUF and the tag command by command, the rest from the three things a command can answer. -/
theorem commandsLeaveTheRestAlone : Obligations.CommandsLeaveTheRestAlone :=
  fun _ _ _ h => ⟨exec_buf h, exec_sameTag h, exec_inputs h, exec_msgIn h, fun _ hok => exec_fault_of_ok h hok⟩

/-! ### TAG is opaque -/

/-- The outcome with TAG replaced in its next state. -/
def retag (x : Data) : Host.Outcome State Fault Refusal → Host.Outcome State Fault Refusal
  | .next t => .next { t with tag := x }
  | .fault r => .fault r
  | .refused r => .refused r

/-- The gate reads no TAG. -/
theorem unlessHalted_retag {s : State} {x : Data} {r r' : Host.Outcome State Fault Refusal} (h : r' = retag x r) :
    unlessHalted { s with tag := x } r' = retag x (unlessHalted s r) := by
  subst h
  by_cases hs : s.fault = 0
  · rw [unlessHalted_of_running (s := { s with tag := x }) hs, unlessHalted_of_running hs]
  · rw [unlessHalted_of_halted (s := { s with tag := x }) hs, unlessHalted_of_halted hs]
    rfl

/-- A buffer write carries TAG along. -/
theorem bufWrite_tag (s : State) (x : Data) (addr n v : Nat) :
    bufWrite { s with tag := x } addr n v = (bufWrite s addr n v).map fun t => { t with tag := x } := by
  unfold bufWrite
  split <;> rfl

/-- A field write carries TAG along. -/
theorem fieldWrite_tag (s : State) (x : Data) (o l v : Nat) :
    fieldWrite { s with tag := x } o l v = (fieldWrite s o l v).map fun t => { t with tag := x } := by
  unfold fieldWrite
  rw [show bufRead { s with tag := x } (geomStart o) (geomBytes o l) = bufRead s (geomStart o) (geomBytes o l) from rfl]
  cases bufRead s (geomStart o) (geomBytes o l) with
  | none => rfl
  | some W => exact bufWrite_tag s x _ _ _

theorem execSetf_retag (sel : Sel) (wdata : Data) (s : State) (x : Data) :
    execSetf sel wdata { s with tag := x } = retag x (execSetf sel wdata s) := by
  refine unlessHalted_retag ?_
  cases fieldAt sel with
  | none => rfl
  | some f =>
    dsimp only
    rw [fieldWrite_tag]
    split
    · rfl
    · cases fieldWrite s f.off f.len wdata.toNat <;> rfl

theorem execSetb_retag (sel : Sel) (wdata : Data) (s : State) (x : Data) :
    execSetb sel wdata { s with tag := x } = retag x (execSetb sel wdata s) := by
  refine unlessHalted_retag ?_
  rw [byteWrite, bufWrite_tag, ← byteWrite]
  split
  · rfl
  · split
    · rfl
    · cases byteWrite s sel.toNat wdata.toNat <;> rfl

theorem execGetf_retag (sel : Sel) (s : State) (x : Data) :
    execGetf sel { s with tag := x } = retag x (execGetf sel s) := by
  refine unlessHalted_retag ?_
  cases fieldAt sel with
  | none => rfl
  | some f =>
    dsimp only
    rw [show fieldRead { s with tag := x } f.off f.len = fieldRead s f.off f.len from rfl]
    cases fieldRead s f.off f.len <;> rfl

theorem execGetb_retag (sel : Sel) (s : State) (x : Data) :
    execGetb sel { s with tag := x } = retag x (execGetb sel s) := by
  refine unlessHalted_retag ?_
  rw [show byteRead { s with tag := x } sel.toNat = byteRead s sel.toNat from rfl]
  split
  · rfl
  · cases byteRead s sel.toNat <;> rfl

theorem execP2n_retag (wdata : Data) (s : State) (x : Data) :
    execP2n wdata { s with tag := x } = retag x (execP2n wdata s) := by
  refine unlessHalted_retag ?_
  cases posixToNtp wdata <;> rfl

theorem execN2p_retag (wdata : Data) (s : State) (x : Data) :
    execN2p wdata { s with tag := x } = retag x (execN2p wdata s) := by
  refine unlessHalted_retag ?_
  cases ntpToPosix wdata <;> rfl

/-- A command that neither reads nor writes TAG gives the same outcome from any TAG, up to that TAG. -/
theorem exec_retag {i : Instr} (hget : i ≠ .tagget) (hclr : i ≠ .mclr) (hload : ∀ x, i ≠ .mload x)
    (hset : ∀ x, i ≠ .tagset x) (s : State) (x : Data) : exec i { s with tag := x } = retag x (exec i s) := by
  cases i with
  | tagget => exact absurd rfl hget
  | mclr => exact absurd rfl hclr
  | mload y => exact absurd rfl (hload y)
  | tagset y => exact absurd rfl (hset y)
  | getf sel => exact execGetf_retag sel s x
  | setf sel wdata => exact execSetf_retag sel wdata s x
  | getb sel => exact execGetb_retag sel s x
  | setb sel wdata => exact execSetb_retag sel wdata s x
  | p2n wdata => exact execP2n_retag wdata s x
  | n2p wdata => exact execN2p_retag wdata s x
  | rdstat => rfl

/-- The commands that write TAG (10_state.md R21). -/
def WritesTag (i : Instr) : Prop := i = .mclr ∨ (∃ x, i = .mload x) ∨ ∃ x, i = .tagset x

/-- In a running block a command that writes TAG leaves the same state whatever TAG was. -/
theorem exec_writesTag_of_running {i : Instr} (hi : WritesTag i) {s : State} (hs : s.fault = 0) (x : Data) :
    exec i { s with tag := x } = exec i s := by
  rcases hi with rfl | ⟨y, rfl⟩ | ⟨y, rfl⟩
  · rw [exec_mclr_of_running hs, exec_mclr_of_running (s := { s with tag := x }) hs]
    rfl
  · rw [exec_mload_of_running hs, exec_mload_of_running (s := { s with tag := x }) hs]
    rfl
  · rw [exec_tagset_of_running hs, exec_tagset_of_running (s := { s with tag := x }) hs]

/-- Settles O17: a halted block keeps TAG; in a running one a command carries TAG along, or writes it and drops the old one. -/
theorem tagIsOpaque : Obligations.TagIsOpaque := by
  intro i s t x hget h
  by_cases hw : WritesTag i
  · by_cases hs : s.fault = 0
    · exact .inr ((exec_writesTag_of_running hw hs x).trans h)
    · have hi : i ≠ .rdstat := by
        rintro rfl
        rcases hw with h | ⟨_, h⟩ | ⟨_, h⟩ <;> cases h
      rw [exec_of_halted hs hi] at h
      cases h
      exact .inl ⟨exec_of_halted (s := { s with tag := x }) hs hi, rfl⟩
  · have hclr : i ≠ .mclr := fun h => hw (.inl h)
    have hload : ∀ y, i ≠ .mload y := fun y h => hw (.inr (.inl ⟨y, h⟩))
    have hset : ∀ y, i ≠ .tagset y := fun y h => hw (.inr (.inr ⟨y, h⟩))
    obtain ⟨htag, -⟩ := exec_sameTag h hclr hload hset
    exact .inl ⟨(exec_retag hget hclr hload hset s x).trans (by rw [h, retag]), htag⟩

/-! ### Reads repeat and writes are idempotent -/

/-- A command other than RDSTAT that answers OK found the block running. -/
theorem running_of_ok {i : Instr} {s t : State} {d : Data} (hi : i ≠ .rdstat) (h : exec i s = .next t)
    (hok : t.rsp = some ⟨0, d⟩) : s.fault = 0 := by
  by_contra hs
  rw [exec_of_halted hs hi] at h
  cases h
  cases hok

/-- A read answered OK changes the response only, in a halted block (RDSTAT) too. -/
theorem exec_read_of_ok {i : Instr} {s t : State} {d : Data} (hi : IsRead i) (h : exec i s = .next t)
    (hok : t.rsp = some ⟨0, d⟩) : t = { s with rsp := t.rsp } := by
  by_cases hr : i = .rdstat
  · subst hr
    cases h
    rfl
  · rcases exec_read_of_running hi (running_of_ok hr h hok) h with ⟨c, hc, rfl⟩ | ⟨e, rfl⟩
    · cases hok
      exact absurd rfl hc
    · rfl

/-- Writing a range twice with one value is writing it once: canonical contents are settled by their bytes. -/
theorem Memory.writeBE_idem {m : Memory} (h : m.wf) {addr n : Nat} (hn : addr + n ≤ Config.msgBytes) (v : Nat) :
    (m.writeBE addr n v).writeBE addr n v = m.writeBE addr n v := by
  have honce := Memory.wf_writeBE h addr n v hn
  refine Memory.ext_of_read (Memory.wf_writeBE honce addr n v hn) honce fun a => ?_
  by_cases ha : addr ≤ a ∧ a < addr + n
  · obtain ⟨j, rfl⟩ := Nat.exists_eq_add_of_le ha.1
    rw [Memory.read_writeBE_inside _ _ _ _ _ (by omega), Memory.read_writeBE_inside _ _ _ _ _ (by omega)]
  · rw [Memory.read_writeBE_outside _ _ _ _ _ (by omega)]

/-- Inserting a value a second time changes nothing. -/
theorem insertField_idem {W n lead l trail v : Nat} (h : 8 * n = lead + l + trail) (hv : v < 2 ^ l) :
    insertField (insertField W n lead trail v) n lead trail v = insertField W n lead trail v := by
  refine Nat.eq_of_testBit_eq fun k => ?_
  rw [insertField_testBit h hv, insertField_testBit h hv]
  split <;> rfl

/-- A field write repeated on the state it left gives that state. -/
theorem fieldWrite_idem {s t : State} {o l v : Nat} (hwf : s.buf.wf) (hl : 1 ≤ l) (ho : o + l ≤ 384) (hv : v < 2 ^ l)
    (h : fieldWrite s o l v = some t) : fieldWrite t o l v = some t := by
  obtain ⟨-, hin, hbits⟩ := geom_inside hl ho
  rw [fieldWrite_eq s hl ho hv] at h
  obtain rfl := Option.some.inj h
  rw [fieldWrite_eq _ hl ho hv, Memory.readBE_writeBE _ _ _ _ (insertField_lt hbits (Memory.readBE_lt _ _ _) hv),
    insertField_idem hbits hv, Memory.writeBE_idem hwf hin]

/-- SETF in a running block answers OK without data, or a fault. -/
theorem exec_setf_ok_data {s t : State} {sel : Sel} {wdata d : Data} (hs : s.fault = 0) (h : exec (.setf sel wdata) s = .next t)
    (hok : t.rsp = some ⟨0, d⟩) : d = 0 := by
  cases hf : fieldAt sel with
  | none => cases (exec_setf_of_no_field hs hf wdata).symm.trans h; cases hok
  | some f =>
    by_cases hv : wdata.toNat < 2 ^ f.len
    · obtain ⟨hl, -, ho⟩ := fieldAt_bounds hf
      cases (exec_setf_of_field hs hf hv (fieldWrite_eq s hl ho hv)).symm.trans h
      cases hok
      rfl
    · cases (exec_setf_of_wide hs hf (Nat.le_of_not_lt hv)).symm.trans h
      cases hok

/-- SETF done twice. -/
theorem exec_setf_idem {s t : State} {sel : Sel} {wdata d : Data} (hwf : s.buf.wf) (h : exec (.setf sel wdata) s = .next t)
    (hok : t.rsp = some ⟨0, d⟩) : exec (.setf sel wdata) t = .next t := by
  have hs := running_of_ok (by nofun) h hok
  obtain rfl := exec_setf_ok_data hs h hok
  obtain ⟨-, f, u, hf, hv, hw, rfl⟩ := exec_setf_eq_ok h hok
  obtain ⟨hl, -, ho⟩ := fieldAt_bounds hf
  rw [exec_rsp, exec_setf_of_field ((fieldWrite_fault hw).trans hs) hf hv (fieldWrite_idem hwf hl ho hv hw)]

/-- SETB done twice. -/
theorem exec_setb_idem {s t : State} {sel : Sel} {wdata d : Data} (hwf : s.buf.wf) (h : exec (.setb sel wdata) s = .next t)
    (hok : t.rsp = some ⟨0, d⟩) : exec (.setb sel wdata) t = .next t := by
  have hs := running_of_ok (by nofun) h hok
  rcases Nat.lt_or_ge sel.toNat 48 with hsel | hsel
  · rcases Nat.lt_or_ge wdata.toNat 256 with hv | hv
    · cases (exec_setb_of_byte hs hsel hv).symm.trans h
      have hidem := Memory.writeBE_idem hwf (n := 1) hsel wdata.toNat
      rw [Memory.writeBE_one, Memory.writeBE_one, BitVec.ofNat_toNat] at hidem
      exact (exec_setb_of_byte (by exact hs) hsel hv).trans (by simp only [hidem])
    · cases (exec_setb_of_wide hs hsel hv).symm.trans h
      cases hok
  · cases (exec_setb_outside hs hsel wdata).symm.trans h
    cases hok

/-- Settles O18: a read leaves the registers it reads, and each write leaves a state in which it writes what stands there. -/
theorem readsAreFreeOfEffectsAndWritesIdempotent : Obligations.ReadsAreFreeOfEffectsAndWritesIdempotent := by
  rintro i s t hwf h ⟨d, hok⟩
  refine ⟨?_, fun hi => exec_read_of_ok hi h hok⟩
  cases i with
  | setf sel wdata => exact exec_setf_idem hwf h hok
  | setb sel wdata => exact exec_setb_idem hwf h hok
  | mclr =>
    have hs := running_of_ok (by nofun) h hok
    cases (exec_mclr_of_running hs).symm.trans h
    exact exec_mclr_of_running hs
  | mload tag =>
    have hs := running_of_ok (by nofun) h hok
    cases (exec_mload_of_running hs tag).symm.trans h
    exact exec_mload_of_running (by exact hs) tag
  | tagset tag =>
    have hs := running_of_ok (by nofun) h hok
    cases (exec_tagset_of_running hs tag).symm.trans h
    exact exec_tagset_of_running (by exact hs) tag
  | getf _ | getb _ | tagget | rdstat | p2n _ | n2p _ =>
    rw [exec_read_of_ok (by simp [IsRead]) h hok, exec_rsp, h, exec_read_of_ok (by simp [IsRead]) h hok]

end Sys2Proof.Machine
end

section
/-! SUPPORT. Proofs about several blocks and whole runs: a block's step is its own (20_memory.md R66), and a run ended well
exactly when every word was answered OK and FAULT is 0 at the end (70_reset_and_hazards.md R251). -/

namespace Sys2Proof.Machine

/-! ### Several blocks -/

/-- A block of the system takes its own step. -/
theorem stepBlock_of_next {bs : List State} {k : Nat} {s t : State} (hk : bs[k]? = some s) (h : step s = .next t) :
    stepBlock bs k = .next (bs.set k t) := by
  simp [stepBlock, hk, h]

/-- Where there is no block, nothing happens. -/
theorem stepBlock_of_none {bs : List State} {k : Nat} (hk : bs[k]? = none) : stepBlock bs k = .next bs := by
  simp [stepBlock, hk]

/-- Settles O49: the step is looked up and stored at position `k` alone. -/
theorem blocksAreIndependent : Obligations.BlocksAreIndependent := by
  intro bs cs k h
  cases hk : bs[k]? with
  | none =>
    obtain rfl := Host.Outcome.next.inj ((stepBlock_of_none hk).symm.trans h)
    exact ⟨rfl, fun _ _ => rfl, nofun⟩
  | some s =>
    obtain ⟨t, ht⟩ := exists_step_eq_next s
    obtain rfl := Host.Outcome.next.inj ((stepBlock_of_next hk ht).symm.trans h)
    obtain ⟨hlt, -⟩ := List.getElem?_eq_some_iff.1 hk
    refine ⟨List.length_set, fun j hj => List.getElem?_set_ne hj.symm, ?_⟩
    rintro s' ⟨⟩
    exact ⟨t, ht, List.getElem?_set_self hlt, fun bs' hk' => stepBlock_of_next hk' ht⟩

/-! ### Runs that ended well -/

theorem endedWell_of_idle {s : State} (h : s.inputs = []) : endedWell s = (s.fault == 0) := by
  rw [endedWell, h]
  rfl

/-- A run ended well when its first move was answered well and the rest of the run ended well. -/
theorem endedWell_of_move {s u : State} {m : HostMove} {rest : List HostMove} (hin : s.inputs = m :: rest)
    (h : step s = .next u) : endedWell s = (answeredWell m u && endedWell u) := by
  have hu : u.inputs = rest := by rw [step_inputs h, hin, List.tail_cons]
  rw [endedWell, endedWell, hu, hin, List.length_cons, endedWellAfter, hin, h]

theorem answeredWell_command {w : CmdWord} {m : MsgWord} {t : State} :
    answeredWell (.command w m) t = true ↔ ∃ r, t.rsp = some r ∧ r.status = 0 := by
  unfold answeredWell
  cases t.rsp <;> simp

/-- A move answered well keeps FAULT at 0. -/
theorem step_fault_of_answeredWell {s u : State} {m : HostMove} {rest : List HostMove} (hin : s.inputs = m :: rest)
    (h : step s = .next u) (hwell : answeredWell m u = true) (hs : s.fault = 0) : u.fault = 0 := by
  cases m with
  | reset =>
    cases (step_of_reset hin).symm.trans h
    rfl
  | command w x =>
    obtain ⟨⟨c, d⟩, hr, rfl⟩ := answeredWell_command.1 hwell
    cases hd : decode w with
    | ok i => exact (exec_fault_of_ok ((step_of_legal hin hd).symm.trans h) hr).trans hs
    | error e =>
      rw [step_of_illegal hin hd, illegalWord_eq, present_fault, if_pos hs] at h
      cases h
      cases hr

/-- FAULT stays 0 all through a run that started with it 0 and ended well. -/
theorem fault_eq_zero_of_endedWell {k : Nat} {s t : State} (hrun : Host.Core.run core k s = .next t) (hk : k ≤ s.inputs.length)
    (hs : s.fault = 0) (hwell : endedWell s = true) : t.fault = 0 := by
  induction k generalizing s with
  | zero =>
    cases hrun
    exact hs
  | succ k ih =>
    obtain ⟨u, hu, hrest⟩ := run_succ_eq_next hrun
    obtain ⟨m, rest, hin⟩ := List.exists_cons_of_length_pos (Nat.lt_of_lt_of_le k.succ_pos hk)
    rw [endedWell_of_move hin hu, Bool.and_eq_true] at hwell
    obtain ⟨hm, hu'⟩ := hwell
    have hlen : k ≤ u.inputs.length := by
      rw [step_inputs hu, List.length_tail]
      omega
    exact ih hrest hlen (step_fault_of_answeredWell hin hu hm hs) hu'

/-- A halted block that is not reset does not end well: it is halted at the end. -/
theorem endedWell_eq_false_of_halted {moves : List HostMove} {s : State} (hin : s.inputs = moves) (hs : s.fault ≠ 0)
    (hreset : ∀ m ∈ moves, m ≠ .reset) : endedWell s = false := by
  induction moves generalizing s with
  | nil => rw [endedWell_of_idle hin, beq_eq_false_iff_ne.2 hs]
  | cons m rest ih =>
    obtain ⟨u, hu⟩ := exists_step_eq_next s
    have hu' : u.inputs = rest := by rw [step_inputs hu, hin, List.tail_cons]
    have hhead : s.inputs.head? ≠ some .reset := by
      rw [hin, List.head?_cons]
      exact fun h => hreset m List.mem_cons_self (Option.some.inj h)
    rw [endedWell_of_move hin hu,
      ih hu' (step_fault_ne_zero hu hs hhead) fun m hm => hreset m (List.mem_cons_of_mem _ hm), Bool.and_false]

/-- Every presented word of the run was answered OK. -/
def AllAnsweredOk (s : State) : Prop :=
  ∀ (k : Nat) (w : CmdWord) (m : MsgWord), s.inputs[k]? = some (.command w m) →
    ∃ t r, Host.Core.run core (k + 1) s = .next t ∧ t.rsp = some r ∧ r.status = 0

/-- The words of a run are its first one and those of the rest. -/
theorem allAnsweredOk_of_move {s u : State} {m : HostMove} {rest : List HostMove} (hin : s.inputs = m :: rest)
    (h : step s = .next u) : AllAnsweredOk s ↔ answeredWell m u = true ∧ AllAnsweredOk u := by
  have hu : u.inputs = rest := by rw [step_inputs h, hin, List.tail_cons]
  have hrun (k : Nat) : Host.Core.run core (k + 1) s = Host.Core.run core k u := run_succ_of_next k h
  simp only [AllAnsweredOk, hin, hu, hrun]
  refine ⟨fun hall => ⟨?_, fun k w x hk => hall (k + 1) w x hk⟩, fun ⟨hm, hall⟩ k w x hk => ?_⟩
  · cases m with
    | reset => rfl
    | command w x =>
      obtain ⟨t, r, ht, hr⟩ := hall 0 w x rfl
      cases ht
      exact answeredWell_command.2 ⟨r, hr⟩
  · cases k with
    | zero =>
      obtain rfl := Option.some.inj hk
      obtain ⟨r, hr⟩ := answeredWell_command.1 hm
      exact ⟨u, r, rfl, hr⟩
    | succ k => exact hall k w x hk

/-- R251, by induction on the moves. -/
theorem endedWell_iff {moves : List HostMove} {s : State} (hin : s.inputs = moves) :
    endedWell s = true ↔
      (∃ t, Host.Core.run core moves.length s = .next t ∧ t.fault = 0) ∧ AllAnsweredOk s := by
  induction moves generalizing s with
  | nil =>
    rw [endedWell_of_idle hin, beq_iff_eq]
    refine ⟨fun hs => ⟨⟨s, rfl, hs⟩, fun k w m hk => ?_⟩, ?_⟩
    · rw [hin] at hk
      cases hk
    · rintro ⟨⟨t, ⟨⟩, hs⟩, -⟩
      exact hs
  | cons m rest ih =>
    obtain ⟨u, hu⟩ := exists_step_eq_next s
    have hu' : u.inputs = rest := by rw [step_inputs hu, hin, List.tail_cons]
    rw [endedWell_of_move hin hu, Bool.and_eq_true, ih hu', allAnsweredOk_of_move hin hu, List.length_cons,
      run_succ_of_next _ hu]
    tauto

/-- Settles O50: both ways by induction on the moves; a run that ended well never saw a fault. -/
theorem faultedRunDidNotEndWell : Obligations.FaultedRunDidNotEndWell := by
  intro s
  refine ⟨fun k t hrun hk ht hstart => ?_, endedWell_iff rfl⟩
  by_cases hs : s.fault = 0
  · exact Bool.eq_false_iff.2 fun hwell => ht (fault_eq_zero_of_endedWell hrun hk hs hwell)
  · exact endedWell_eq_false_of_halted rfl hs (hstart.resolve_left hs)

end Sys2Proof.Machine
end

section
/-! SUPPORT. Proofs about the buffer as one integer: big-endian ranges (20_memory.md R51), field accesses as slices of MSGINT
(40_codec_ops.md R119), messages passed through the ports (R122), and byte and field views of one buffer (20_memory.md R55). -/

namespace Sys2Proof.Machine

/-! ### Byte ranges and the standard geometry -/

/-- A range as the sum of its bytes, each at its place. -/
theorem Memory.readBE_eq_sum (m : Memory) (addr n : Nat) :
    m.readBE addr n = ∑ j ∈ Finset.range n, (m.read (addr + j)).toNat * 256 ^ (n - 1 - j) := by
  induction n with
  | zero => rfl
  | succ n ih =>
    rw [Memory.readBE, ih, Finset.sum_range_succ, Finset.sum_mul, Nat.add_sub_cancel, Nat.sub_self, pow_zero, mul_one]
    refine congrArg (· + _) (Finset.sum_congr rfl fun j hj => ?_)
    have hlt := Finset.mem_range.1 hj
    rw [mul_assoc, ← pow_succ, show n - 1 - j + 1 = n - j by omega]

/-- Settles O22: the sum by induction on the length, the writes by the laws of `writeBE`. -/
theorem byteRangesAreBigEndian : Obligations.ByteRangesAreBigEndian :=
  fun m addr n => ⟨m.readBE_eq_sum addr n, fun v =>
    ⟨m.read_writeBE_inside addr n v, m.read_writeBE_outside addr n v⟩⟩

/-- Settles O21: thirteen closed geometries. -/
theorem standardFieldGeometry : Obligations.StandardFieldGeometry := by
  unfold Obligations.StandardFieldGeometry
  decide

/-! ### Field accesses as slices of MSGINT -/

/-- A field is a slice of the whole message. -/
theorem fieldRead_eq_slice (s : State) {o l : Nat} (hl : 1 ≤ l) (ho : o + l ≤ 384) :
    fieldRead s o l = some (s.msgInt / 2 ^ (384 - o - l) % 2 ^ l) := by
  have hread := fieldRead_eq s hl ho
  rw [hread]
  refine congrArg some (Nat.eq_of_testBit_eq fun k => ?_)
  rw [fieldRead_testBit hl ho hread, Nat.testBit_mod_two_pow, Nat.testBit_div_two_pow]
  by_cases hk : k < l
  · rw [s.wireBit_eq _ (by omega), show 383 - (o + l - 1 - k) = k + (384 - o - l) by omega]
  · simp [hk]

/-- A field write sets the field's wire bits to the value's. -/
theorem fieldWrite_wireBit_inside {s t : State} {o l v i : Nat} (hl : 1 ≤ l) (ho : o + l ≤ 384) (hv : v < 2 ^ l)
    (h : fieldWrite s o l v = some t) (hi : i < l) : t.wireBit (o + i) = v.testBit (l - 1 - i) := by
  rw [fieldRead_testBit hl ho (fieldRead_of_fieldWrite hl ho hv h), decide_eq_true (by omega), Bool.true_and]
  congr 1
  omega

/-- MSGINT has no bit above the message's 384. -/
theorem State.msgInt_testBit_of_le (s : State) {k : Nat} (hk : 384 ≤ k) : s.msgInt.testBit k = false := by
  rw [← s.msgOut_getLsbD, BitVec.getLsbD_of_ge _ _ hk]

/-- A field write replaces the slice of the whole message. -/
theorem fieldWrite_msgInt {s t : State} {o l v : Nat} (hl : 1 ≤ l) (ho : o + l ≤ 384) (hv : v < 2 ^ l)
    (h : fieldWrite s o l v = some t) :
    t.msgInt = s.msgInt - s.msgInt / 2 ^ (384 - o - l) % 2 ^ l * 2 ^ (384 - o - l) + v * 2 ^ (384 - o - l) := by
  refine Nat.eq_of_testBit_eq fun k => ?_
  rw [testBit_replace_slice _ _ _ _ _ hv]
  rcases Nat.lt_or_ge k 384 with hk | hk
  · have hbit := t.wireBit_eq (383 - k) (by omega)
    rw [show 383 - (383 - k) = k by omega] at hbit
    rw [← hbit]
    split
    · next hin =>
      have := fieldWrite_wireBit_inside (i := 383 - k - o) hl ho hv h (by omega)
      rwa [show o + (383 - k - o) = 383 - k by omega, show l - 1 - (383 - k - o) = k - (384 - o - l) by omega] at this
    · next hout =>
      rw [fieldWrite_wireBit_outside hl ho hv h (by omega), s.wireBit_eq _ (by omega), show 383 - (383 - k) = k by omega]
  · rw [t.msgInt_testBit_of_le hk, if_neg (by omega), s.msgInt_testBit_of_le hk]

/-- Settles O24: both accesses touch exactly the field's bits of MSGINT. -/
theorem fieldAccessIsWholeBufferForm : Obligations.FieldAccessIsWholeBufferForm := by
  intro s o l hl _ ho
  refine ⟨fieldRead_eq_slice s hl ho, fun v hv => ?_⟩
  have hw := fieldWrite_eq s hl ho hv
  exact ⟨_, hw, fieldWrite_msgInt hl ho hv hw, rfl⟩

/-- GETF on the whole message, in a running block. -/
theorem exec_getf_eq_slice {s : State} {sel : Sel} {f : MessageField} (hs : s.fault = 0) (hf : fieldAt sel = some f) :
    exec (.getf sel) s =
      .next { s with rsp := some ⟨0, BitVec.ofNat 64 (s.msgInt / 2 ^ (384 - f.off - f.len) % 2 ^ f.len)⟩ } := by
  obtain ⟨hl, -, ho⟩ := fieldAt_bounds hf
  exact exec_getf_of_field hs hf (fieldRead_eq_slice s hl ho)

/-- Settles O28: the whole-buffer form of each access, and its wire bits. -/
theorem fieldCommandsOnTheWholeBuffer : Obligations.FieldCommandsOnTheWholeBuffer := by
  intro s sel f hs hf
  obtain ⟨hl, -, ho⟩ := fieldAt_bounds hf
  refine ⟨exec_getf_eq_slice hs hf, fun i hi => ?_, fun wdata hv => ?_⟩
  · rw [fieldRead_testBit hl ho (fieldRead_eq_slice s hl ho), decide_eq_true (by omega), Bool.true_and]
    congr 1
    omega
  · obtain ⟨t, hw⟩ : ∃ t, fieldWrite s f.off f.len wdata.toNat = some t := ⟨_, fieldWrite_eq s hl ho hv⟩
    have hint := fieldWrite_msgInt hl ho hv hw
    have hinside (i : Nat) (hi : i < f.len) := fieldWrite_wireBit_inside hl ho hv hw hi
    have houtside (b : Nat) (hb : b < f.off ∨ f.off + f.len ≤ b) := fieldWrite_wireBit_outside hl ho hv hw hb
    exact ⟨_, exec_setf_of_field hs hf hv hw, hint, hinside, houtside⟩

/-! ### Messages through the ports -/

/-- Blocks that show the same message hold the same integer. -/
theorem State.msgInt_eq_of_msgOut {s t : State} (h : t.msgOut = s.msgOut) : t.msgInt = s.msgInt := by
  rw [← t.msgOut_toNat, h, s.msgOut_toNat]

/-- A block into which a message was loaded shows that message. -/
theorem State.msgOut_of_ofMessage {s : State} {x : MsgWord} (h : s.buf = Memory.ofMessage x Config.msgBytes) :
    s.msgOut = x := by
  refine BitVec.eq_of_getLsbD_eq fun k hk => ?_
  have hbit := s.wireBit_eq (383 - k) (by omega)
  rw [show 383 - (383 - k) = k by omega] at hbit
  rw [s.msgOut_getLsbD, ← hbit, State.wireBit, h, Memory.read_ofMessage, if_pos (show (383 - k) / 8 < 48 by omega), messageByte,
    BitVec.getLsbD_extractLsb', decide_eq_true (by omega), Bool.true_and]
  congr 1
  omega

/-- Settles O31: GETF answers a slice of MSGINT, which loading the shown message carries over. -/
theorem reparsedMessageHasTheSameFields : Obligations.ReparsedMessageHasTheSameFields := by
  intro s s' tag sel hs hs' hsel
  obtain ⟨f, hf⟩ := Option.ne_none_iff_exists'.1 (mt fieldAt_eq_none.1 (Nat.not_le.2 hsel))
  have hload := exec_mload_of_running (s := { s' with msgIn := s.msgOut }) hs' tag
  have hshow := State.msgOut_of_ofMessage (s := { s'.attachTag tag with
    buf := Memory.ofMessage s.msgOut Config.msgBytes, rsp := some ⟨0, 0⟩, msgIn := s.msgOut }) rfl
  refine ⟨_, _, hload, hshow, exec_getf_eq_slice hs hf, ?_⟩
  rw [← State.msgInt_eq_of_msgOut hshow]
  exact exec_getf_eq_slice (by exact hs') hf

/-! ### Byte and field views of one buffer -/

/-- A byte of a range just written, as GETB answers it. -/
theorem Memory.setWidth_read_writeBE (m : Memory) {addr n i : Nat} (v : Nat) (h1 : addr ≤ i) (h2 : i < addr + n) :
    ((m.writeBE addr n v).read i).setWidth 64 = BitVec.ofNat 64 (v / 256 ^ (addr + n - 1 - i) % 256) := by
  obtain ⟨j, rfl⟩ := Nat.exists_eq_add_of_le h1
  rw [Memory.read_writeBE_inside _ _ _ _ _ (by omega), show addr + n - 1 - (addr + j) = n - 1 - j by omega]
  refine BitVec.eq_of_toNat_eq ?_
  rw [BitVec.toNat_setWidth, BitVec.toNat_ofNat, BitVec.toNat_ofNat]

/-- GETB of a byte that a field write touched answers that byte of the word written. -/
theorem exec_getb_of_fieldWrite {s t : State} {o l v : Nat} {i : Sel} (hs : s.fault = 0) (hl : 1 ≤ l) (ho : o + l ≤ 384)
    (hv : v < 2 ^ l) (hw : fieldWrite s o l v = some t) (h1 : geomStart o ≤ i.toNat) (h2 : i.toNat < geomStop o l) :
    exec (.getb i) t = .next { t with rsp := some ⟨0, BitVec.ofNat 64
      (insertField (s.buf.readBE (geomStart o) (geomBytes o l)) (geomBytes o l) (geomLead o) (geomTrail o l) v /
        256 ^ (geomStop o l - 1 - i.toNat) % 256)⟩ } := by
  obtain ⟨-, hin, -⟩ := geom_inside hl ho
  have hstop := geomStart_add_geomBytes o l
  have hrun : t.fault = 0 := (fieldWrite_fault hw).trans hs
  rw [fieldWrite_eq s hl ho hv] at hw
  obtain rfl := Option.some.inj hw
  rw [exec_getb_of_byte hrun (by omega), Memory.setWidth_read_writeBE _ _ h1 (by omega), hstop]

/-- The wire bits of a buffer after one byte is written. -/
theorem State.wireBit_of_write {s t : State} {i : Nat} {v : Byte} (h : t.buf = s.buf.write i v) (b : Nat) :
    t.wireBit b = if b / 8 = i then v.getLsbD (7 - b % 8) else s.wireBit b := by
  rw [State.wireBit, h, Memory.read_write]
  split <;> rfl

/-- Settles O34: a byte of the field is a byte of the word SETF wrote; a bit of the field is a bit of the byte SETB wrote, or of
another byte. -/
theorem byteAndFieldViewsAgree : Obligations.ByteAndFieldViewsAgree := by
  intro s sel f hs hf
  obtain ⟨hl, hlen, ho⟩ := fieldAt_bounds hf
  refine ⟨fun wdata hv => ?_, fun i wdata hi hv => ?_⟩
  · obtain ⟨t, hw⟩ : ∃ t, fieldWrite s f.off f.len wdata.toNat = some t := ⟨_, fieldWrite_eq s hl ho hv⟩
    refine ⟨_, exec_setf_of_field hs hf hv hw, fun i h1 h2 => ?_⟩
    rw [exec_rsp, exec_getb_of_fieldWrite hs hl ho hv hw h1 h2]
  · obtain ⟨t, ht⟩ : ∃ t, t = { s with buf := s.buf.write i.toNat (wdata.setWidth 8), rsp := some ⟨0, 0⟩ } := ⟨_, rfl⟩
    have hbits := State.wireBit_of_write (s := s) (t := t) (i := i.toNat) (v := wdata.setWidth 8) (by rw [ht])
    have hrun : t.fault = 0 := by rw [ht]; exact hs
    have hread := fieldRead_eq t hl ho
    refine ⟨t, _, ht ▸ exec_setb_of_byte hs hi hv, exec_getf_of_field hrun hf hread, fun k hk => ?_⟩
    rw [BitVec.getLsbD_ofNat, decide_eq_true (by omega), Bool.true_and, fieldRead_testBit hl ho hread,
      decide_eq_true (by omega), Bool.true_and, show f.off + f.len - 1 - (f.len - 1 - k) = f.off + k by omega, hbits]
    refine if_congr Iff.rfl ?_ rfl
    rw [BitVec.getLsbD_setWidth, decide_eq_true (by omega), Bool.true_and]

end Sys2Proof.Machine
end

section
/-! SUPPORT. Proofs about binary64 numbers (41_timestamp_ops.md R144, R146): the machine's fractions are the rationals of the
rules, a rounded value lies in the range of the format, and rounding is exact on 53 significant bits. -/

namespace Sys2Proof.Machine

/-! ### The value of a pattern -/

/-- `n` with a sign, as R144 writes it. -/
theorem cast_signed (neg : Bool) (n : ℕ) : ((signed neg n : ℤ) : ℚ) = (-1) ^ neg.toNat * n := by
  cases neg <;> simp [signed]

/-- The two halves of a power of two, one of them 1. -/
theorem two_pow_toNat_div (g : ℤ) : (2 : ℚ) ^ g.toNat / 2 ^ (-g).toNat = 2 ^ g := by
  rcases le_total 0 g with hg | hg
  · obtain ⟨n, rfl⟩ := Int.eq_ofNat_of_zero_le hg
    simp
  · obtain ⟨n, hn⟩ := Int.eq_ofNat_of_zero_le (Int.neg_nonneg_of_nonpos hg)
    obtain rfl : g = -n := by omega
    simp

/-- The sign field as a number is the sign bit. -/
theorem toNat_extractLsb'_one (b : Data) (i : ℕ) : (b.extractLsb' i 1).toNat = (b.getLsbD i).toNat := by
  rw [BitVec.extractLsb'_toNat, ← BitVec.testBit_toNat, Nat.toNat_testBit, Nat.shiftRight_eq_div_pow, pow_one]

/-- Settles O40: the three forms of a pattern, each with its power of two split between numerator and denominator. -/
theorem binary64Values : Obligations.Binary64Values := by
  intro b
  simp only [f64val, f64valQ, toNat_extractLsb'_one]
  by_cases hinf : (b.extractLsb' 52 11).toNat = 2047
  case pos =>
    rw [if_pos hinf, if_pos hinf]
    exact ⟨rfl, nofun, iff_of_true rfl (BitVec.eq_of_toNat_eq hinf)⟩
  have hne : b.extractLsb' 52 11 ≠ 2047 := fun h => hinf (by rw [h]; rfl)
  rw [if_neg hinf, if_neg hinf]
  by_cases hsub : (b.extractLsb' 52 11).toNat = 0
  · rw [if_pos hsub, if_pos hsub]
    refine ⟨?_, ?_, iff_of_false nofun hne⟩
    · rw [Option.map_some, cast_signed, Nat.cast_pow, Nat.cast_ofNat, zpow_neg, div_eq_mul_inv]
      rfl
    · rintro n d ⟨⟩
      positivity
  · rw [if_neg hsub, if_neg hsub]
    refine ⟨?_, ?_, iff_of_false nofun hne⟩
    · have hpow := two_pow_toNat_div (((b.extractLsb' 52 11).toNat : ℤ) - 1075)
      rw [show (((b.extractLsb' 52 11).toNat : ℤ) - 1075).toNat = (b.extractLsb' 52 11).toNat - 1075 by omega,
        show (-(((b.extractLsb' 52 11).toNat : ℤ) - 1075)).toNat = 1075 - (b.extractLsb' 52 11).toNat by omega] at hpow
      rw [Option.map_some, cast_signed, ← hpow]
      push_cast
      exact congrArg some (by ring)
    · rintro n d ⟨⟩
      positivity

/-! ### Rounding to an integer, and bounds -/

theorem floor_le_rheQ (q : ℚ) : ⌊q⌋ ≤ rheQ q := by
  unfold rheQ
  split <;> omega

/-- Rounding stays above an integer bound. -/
theorem le_rheQ {n : ℤ} {q : ℚ} (h : n ≤ q) : n ≤ rheQ q := (Int.le_floor.2 h).trans (floor_le_rheQ q)

/-- Rounding stays below an integer bound. -/
theorem rheQ_le {n : ℤ} {q : ℚ} (h : q ≤ n) : rheQ q ≤ n := by
  unfold rheQ
  split
  · next hup =>
    have hfrac : 1 / 2 ≤ q - ⌊q⌋ := hup.elim le_of_lt fun h => h.1.ge
    have : (⌊q⌋ : ℚ) < n := by linarith
    exact Int.add_one_le_of_lt (by exact_mod_cast this)
  · exact_mod_cast (Int.floor_le q).trans h

@[simp] theorem rheQ_intCast (n : ℤ) : rheQ n = n := le_antisymm (rheQ_le le_rfl) (le_rheQ le_rfl)

/-- An even integer is reached from half below it on: the tie goes to it. -/
theorem even_le_rheQ {n : ℤ} (hn : n % 2 = 0) (q : ℚ) : n ≤ rheQ q ↔ (n : ℚ) - 1 / 2 ≤ q := by
  constructor
  · intro h
    have hround := (abs_le.1 (abs_rheQ_sub_le q)).2
    have : (n : ℚ) ≤ rheQ q := by exact_mod_cast h
    linarith
  · intro h
    by_cases hq : (n : ℚ) ≤ q
    · exact le_rheQ hq
    · have hfloor : ⌊q⌋ = n - 1 := by
        rw [Int.floor_eq_iff]
        push_cast
        constructor <;> linarith
      have hup : q - ⌊q⌋ > 1 / 2 ∨ q - ⌊q⌋ = 1 / 2 ∧ ⌊q⌋ % 2 = 1 := by
        rw [hfloor]
        push_cast
        rcases h.lt_or_eq with hlt | heq
        · exact .inl (by linarith)
        · exact .inr ⟨by linarith, by omega⟩
      rw [rheQ, if_pos hup, hfloor]
      omega

/-! ### The machine's exponent and significand -/

theorem powAtMost_iff (g : ℤ) (a : ℕ) {den : ℕ} (hden : 0 < den) :
    powAtMost g a den = true ↔ (2 : ℚ) ^ g ≤ (a : ℚ) / den := by
  have hd : (0 : ℚ) < den := by exact_mod_cast hden
  rw [powAtMost, decide_eq_true_iff, ← two_pow_toNat_div g, div_le_div_iff₀ (by positivity) hd]
  exact_mod_cast Iff.rfl

/-- The exponent of R146: the binary lengths of numerator and denominator leave two candidates. -/
theorem floorLog2_spec {a den : ℕ} (ha : 0 < a) (hden : 0 < den) :
    (2 : ℚ) ^ floorLog2 a den ≤ (a : ℚ) / den ∧ (a : ℚ) / den < 2 ^ (floorLog2 a den + 1) := by
  have hd : (0 : ℚ) < den := by exact_mod_cast hden
  have ha1 : (2 : ℚ) ^ a.log2 ≤ a := by exact_mod_cast Nat.log2_self_le ha.ne'
  have ha2 : (a : ℚ) < 2 ^ (a.log2 + 1) := by exact_mod_cast Nat.lt_log2_self
  have hd1 : (2 : ℚ) ^ den.log2 ≤ den := by exact_mod_cast Nat.log2_self_le hden.ne'
  have hd2 : (den : ℚ) < 2 ^ (den.log2 + 1) := by exact_mod_cast Nat.lt_log2_self
  have lower : (2 : ℚ) ^ ((a.log2 : ℤ) - den.log2 - 1) ≤ (a : ℚ) / den := by
    rw [le_div_iff₀ hd]
    calc (2 : ℚ) ^ ((a.log2 : ℤ) - den.log2 - 1) * den
        ≤ 2 ^ ((a.log2 : ℤ) - den.log2 - 1) * 2 ^ (den.log2 + 1) := by gcongr
      _ = 2 ^ a.log2 := by
        rw [← zpow_natCast, ← zpow_natCast, ← zpow_add₀ two_ne_zero]
        congr 1
        push_cast
        ring
      _ ≤ a := ha1
  have upper : (a : ℚ) / den < 2 ^ ((a.log2 : ℤ) - den.log2 + 1) := by
    rw [div_lt_iff₀ hd]
    calc (a : ℚ) < 2 ^ (a.log2 + 1) := ha2
      _ = 2 ^ ((a.log2 : ℤ) - den.log2 + 1) * 2 ^ den.log2 := by
        rw [← zpow_natCast, ← zpow_natCast, ← zpow_add₀ two_ne_zero]
        congr 1
        push_cast
        ring
      _ ≤ 2 ^ ((a.log2 : ℤ) - den.log2 + 1) * den := by gcongr
  simp only [floorLog2]
  split
  · next h => exact ⟨(powAtMost_iff _ _ hden).1 h, upper⟩
  · next h =>
    rw [powAtMost_iff _ _ hden, not_le] at h
    exact ⟨lower, by rwa [sub_add_cancel]⟩

/-- The significand of R146. -/
theorem significand_eq (a : ℕ) {den : ℕ} (hden : 0 < den) (e : ℤ) :
    significand a den e = rheQ ((a : ℚ) / den / 2 ^ (e - 52)) := by
  have hpow := two_pow_toNat_div (e - 52)
  rw [neg_sub] at hpow
  have hd : (den : ℚ) ≠ 0 := by exact_mod_cast hden.ne'
  rw [significand, rhe_eq_rheQ _ (by positivity), ← hpow]
  congr 1
  push_cast
  field_simp

/-! ### The fields of a pattern -/

/-- The pattern with the given fields (R146). -/
def packFields (sg : BitVec 1) (e : BitVec 11) (f : BitVec 52) : Data := sg ++ e ++ f

theorem getLsbD_packFields (sg : BitVec 1) (e : BitVec 11) (f : BitVec 52) (i : ℕ) :
    (packFields sg e f).getLsbD i =
      if i < 52 then f.getLsbD i else if i < 63 then e.getLsbD (i - 52) else sg.getLsbD (i - 63) := by
  show BitVec.getLsbD (w := 1 + 11 + 52) (sg ++ e ++ f) i = _
  rw [BitVec.getLsbD_append, BitVec.getLsbD_append]
  by_cases h1 : i < 52
  · simp [h1]
  · by_cases h2 : i < 63
    · simp [h1, h2, show i - 52 < 11 by omega]
    · simp [h1, h2, show ¬ i - 52 < 11 by omega, show i - 52 - 11 = i - 63 by omega]

@[simp] theorem packFields_sign (sg : BitVec 1) (e : BitVec 11) (f : BitVec 52) :
    (packFields sg e f).extractLsb' 63 1 = sg := by
  refine BitVec.eq_of_getLsbD_eq fun i hi => ?_
  rw [BitVec.getLsbD_extractLsb', getLsbD_packFields]
  simp [hi, show ¬ 63 + i < 52 by omega]

@[simp] theorem packFields_exponent (sg : BitVec 1) (e : BitVec 11) (f : BitVec 52) :
    (packFields sg e f).extractLsb' 52 11 = e := by
  refine BitVec.eq_of_getLsbD_eq fun i hi => ?_
  rw [BitVec.getLsbD_extractLsb', getLsbD_packFields]
  simp [hi, show 52 + i < 63 by omega]

@[simp] theorem packFields_fraction (sg : BitVec 1) (e : BitVec 11) (f : BitVec 52) :
    (packFields sg e f).extractLsb' 0 52 = f := by
  refine BitVec.eq_of_getLsbD_eq fun i hi => ?_
  rw [BitVec.getLsbD_extractLsb', getLsbD_packFields]
  simp [hi]

/-- A pattern is made of its fields. -/
theorem packFields_of_fields (b : Data) :
    packFields (b.extractLsb' 63 1) (b.extractLsb' 52 11) (b.extractLsb' 0 52) = b := by
  refine BitVec.eq_of_getLsbD_eq fun i hi => ?_
  rw [getLsbD_packFields]
  by_cases h1 : i < 52
  · simp [h1]
  · by_cases h2 : i < 63
    · simp [h1, h2, show i - 52 < 11 by omega, show 52 + (i - 52) = i by omega]
    · simp [h1, h2, show i - 63 < 1 by omega, show 63 + (i - 63) = i by omega]

/-- A number below the modulus, through `ofInt`. -/
theorem toNat_ofInt_of_lt {w : ℕ} {z : ℤ} (h0 : 0 ≤ z) (h1 : z < 2 ^ w) : ((BitVec.ofInt w z).toNat : ℤ) = z := by
  rw [BitVec.toNat_ofInt, Int.toNat_of_nonneg (Int.emod_nonneg _ (by positivity))]
  exact Int.emod_eq_of_lt h0 (by exact_mod_cast h1)

/-- `(-1)^sg` of R144 and R146. -/
def signOf (q : ℚ) : ℚ := (-1) ^ (decide (q < 0)).toNat

theorem signOf_mul_abs (q : ℚ) : signOf q * |q| = q := by
  unfold signOf
  by_cases hq : q < 0
  · simp [hq, abs_of_neg hq]
  · simp [hq, abs_of_nonneg (not_lt.1 hq)]

theorem abs_signOf (q : ℚ) : |signOf q| = 1 := by
  unfold signOf
  rw [abs_pow, abs_neg, abs_one, one_pow]

/-- The value of the pattern R146 defines for exponent `e` and significand `m`. -/
theorem f64valQ_packFields (q : ℚ) {e m : ℤ} (he1 : -1022 ≤ e) (he2 : e ≤ 1023) (hm1 : 2 ^ 52 ≤ m) (hm2 : m < 2 ^ 53) :
    f64valQ (packFields (BitVec.ofBool (decide (q < 0))) (BitVec.ofInt 11 (e + 1023)) (BitVec.ofInt 52 (m - 2 ^ 52))) =
      some (signOf q * m * 2 ^ (e - 52)) := by
  have hexp : ((BitVec.ofInt 11 (e + 1023)).toNat : ℤ) = e + 1023 := toNat_ofInt_of_lt (by omega) (by omega)
  have hfrac : ((BitVec.ofInt 52 (m - 2 ^ 52)).toNat : ℤ) = m - 2 ^ 52 := toNat_ofInt_of_lt (by omega) (by omega)
  have hfracQ : ((BitVec.ofInt 52 (m - 2 ^ 52)).toNat : ℚ) = m - 2 ^ 52 := by exact_mod_cast congrArg (Int.cast (R := ℚ)) hfrac
  simp only [f64valQ, packFields_sign, packFields_exponent, packFields_fraction, BitVec.toNat_ofBool]
  rw [if_neg (by omega), if_neg (by omega), hfracQ, hexp, signOf]
  exact congrArg some (by rw [show e + 1023 - 1075 = e - 52 by ring]; ring)

/-! ### The nearest pattern (R146) -/

/-- The range in which R146 defines a rounding. -/
def InRange (q : ℚ) : Prop := (2 : ℚ) ^ (-1022 : ℤ) ≤ |q| ∧ |q| < 2 ^ 1024 - 2 ^ 970

theorem InRange.ne_zero {q : ℚ} (h : InRange q) : q ≠ 0 := by
  rintro rfl
  obtain ⟨hlo, -⟩ := h
  rw [abs_zero] at hlo
  exact hlo.not_gt (by positivity)

/-- The overflow bound, half a unit of the last place below the next power of two. -/
theorem overflowBound_eq : (2 : ℚ) ^ 1024 - 2 ^ 970 = (2 ^ 53 - 1 / 2) * 2 ^ (971 : ℤ) := by
  have h1 : (2 : ℚ) ^ 1024 = 2 ^ 53 * 2 ^ 971 := by rw [← pow_add]
  have h2 : (2 : ℚ) ^ 971 = 2 ^ 970 * 2 := pow_succ 2 970
  rw [show (2 : ℚ) ^ (971 : ℤ) = 2 ^ 971 from zpow_natCast 2 971, h1, h2]
  generalize (2 : ℚ) ^ 970 = u
  ring

/-- The absolute value of a fraction. -/
theorem abs_div_natCast (num : ℤ) (den : ℕ) : |(num : ℚ) / den| = (num.natAbs : ℚ) / den := by
  rw [abs_div, Nat.abs_cast, Nat.cast_natAbs, Int.cast_abs]

/-- The overflow test of the machine, on rationals. -/
theorem overflow_iff (a : ℕ) {den : ℕ} (hden : 0 < den) :
    (2 ^ 1024 - 2 ^ 970) * den ≤ a ↔ (2 : ℚ) ^ 1024 - 2 ^ 970 ≤ (a : ℚ) / den := by
  have hd : (0 : ℚ) < den := by exact_mod_cast hden
  have hle : 2 ^ 970 ≤ 2 ^ 1024 := pow_le_pow_right₀ one_le_two (show 970 ≤ 1024 by omega)
  rw [le_div_iff₀ hd, ← Nat.cast_le (α := ℚ), Nat.cast_mul, Nat.cast_sub hle, Nat.cast_pow, Nat.cast_pow, Nat.cast_ofNat]

/-- The underflow test of the machine, on rationals. -/
theorem floorLog2_lt_iff {a den : ℕ} (ha : 0 < a) (hden : 0 < den) (g : ℤ) :
    floorLog2 a den < g ↔ (a : ℚ) / den < 2 ^ g := by
  obtain ⟨hlo, hhi⟩ := floorLog2_spec ha hden
  constructor
  · exact fun h => hhi.trans_le (zpow_le_zpow_right₀ one_le_two h)
  · exact fun h => (zpow_lt_zpow_iff_right₀ one_lt_two).1 (hlo.trans_lt h)

/-- The machine refuses a non-zero value outside the range. -/
theorem rne64_eq_none {num : ℤ} {den : ℕ} (hden : 0 < den) (h0 : (num : ℚ) / den ≠ 0) (h : ¬ InRange ((num : ℚ) / den)) :
    rne64 num den = none := by
  have hnum : num ≠ 0 := by
    rintro rfl
    exact h0 (by simp)
  have hout : floorLog2 num.natAbs den < -1022 ∨ (2 ^ 1024 - 2 ^ 970) * den ≤ num.natAbs := by
    rw [floorLog2_lt_iff (Int.natAbs_pos.2 hnum) hden, overflow_iff _ hden, ← abs_div_natCast]
    by_contra hno
    rw [not_or, not_lt, not_le] at hno
    exact h hno
  rw [rne64, if_neg hnum]
  exact if_pos hout

/-- Where the rule is defined, the machine gives its pattern. -/
theorem rne64_isRne64 {num : ℤ} {den : ℕ} (hden : 0 < den) (h : (num : ℚ) / den = 0 ∨ InRange ((num : ℚ) / den)) :
    ∃ x, rne64 num den = some x ∧ IsRne64 ((num : ℚ) / den) x := by
  have hd : (0 : ℚ) < den := by exact_mod_cast hden
  by_cases hnum : num = 0
  · subst hnum
    exact ⟨0, rfl, .inl ⟨by simp, rfl⟩⟩
  have hq : (num : ℚ) / den ≠ 0 := div_ne_zero (by exact_mod_cast hnum) hd.ne'
  obtain ⟨hlo, hhi⟩ := h.resolve_left hq
  have ha : 0 < num.natAbs := Int.natAbs_pos.2 hnum
  obtain ⟨hlog1, hlog2⟩ := floorLog2_spec ha hden
  have hsig := significand_eq num.natAbs hden (floorLog2 num.natAbs den)
  have hin : ¬ (floorLog2 num.natAbs den < -1022 ∨ (2 ^ 1024 - 2 ^ 970) * den ≤ num.natAbs) := by
    rw [floorLog2_lt_iff ha hden, overflow_iff _ hden, ← abs_div_natCast, not_or, not_lt, not_le]
    exact ⟨hlo, hhi⟩
  have hneg : decide (num < 0) = decide ((num : ℚ) / den < 0) :=
    decide_eq_decide.2 (by rw [div_lt_iff₀ hd, zero_mul, Int.cast_lt_zero])
  rw [← abs_div_natCast] at hlog1 hlog2 hsig
  refine ⟨_, ?_, .inr ⟨hq, _, _, hlog1, hlog2, hsig, rfl⟩⟩
  rw [rne64, if_neg hnum]
  simp only [if_neg hin, packF64, hneg]
  split <;> rfl

/-- The exponent of R146 is settled by its bounds. -/
theorem exponent_unique {v : ℚ} {e e' : ℤ} (h1 : (2 : ℚ) ^ e ≤ v) (h2 : v < 2 ^ (e + 1)) (h1' : (2 : ℚ) ^ e' ≤ v)
    (h2' : v < 2 ^ (e' + 1)) : e = e' := by
  have hlt := (zpow_lt_zpow_iff_right₀ (one_lt_two (α := ℚ))).1 (h1.trans_lt h2')
  have hlt' := (zpow_lt_zpow_iff_right₀ (one_lt_two (α := ℚ))).1 (h1'.trans_lt h2)
  omega

/-- R146 defines one pattern. -/
theorem IsRne64.unique {q : ℚ} {x x' : Data} (h : IsRne64 q x) (h' : IsRne64 q x') : x = x' := by
  rcases h with ⟨hq, rfl⟩ | ⟨hq, e, m, h1, h2, hm, rfl⟩
  · rcases h' with ⟨-, rfl⟩ | ⟨hq', -⟩
    · rfl
    · exact absurd hq hq'
  · rcases h' with ⟨hq', -⟩ | ⟨-, e', m', h1', h2', hm', rfl⟩
    · exact absurd hq' hq
    · obtain rfl := exponent_unique h1 h2 h1' h2'
      rw [hm, hm']

/-- The rounded value of a `q` with exponent `e`: its sign, and `|q|` rounded to a multiple of `2^(e-52)`. -/
def roundedTo (q : ℚ) (e : ℤ) : ℚ := signOf q * rheQ (|q| / 2 ^ (e - 52)) * 2 ^ (e - 52)

/-- The rounded significand has 53 bits, or is the power of two above them. -/
theorem significand_bounds {v : ℚ} {e : ℤ} (h1 : (2 : ℚ) ^ e ≤ v) (h2 : v ≤ 2 ^ (e + 1)) :
    2 ^ 52 ≤ rheQ (v / 2 ^ (e - 52)) ∧ rheQ (v / 2 ^ (e - 52)) ≤ 2 ^ 53 := by
  have hpos : (0 : ℚ) < 2 ^ (e - 52) := by positivity
  have hscale (n : ℕ) : ((2 ^ n : ℤ) : ℚ) * 2 ^ (e - 52) = 2 ^ (n + (e - 52)) := by
    rw [zpow_add₀ two_ne_zero, zpow_natCast, Int.cast_pow, Int.cast_ofNat]
  constructor
  · refine le_rheQ ((le_div_iff₀ hpos).2 ?_)
    rw [hscale, Nat.cast_ofNat, add_sub_cancel]
    exact h1
  · refine rheQ_le ((div_le_iff₀ hpos).2 ?_)
    rw [hscale, Nat.cast_ofNat, show 53 + (e - 52) = e + 1 by ring]
    exact h2

/-- A value in range has an exponent of the format. -/
theorem exponent_bounds_of_inRange {q : ℚ} {e : ℤ} (hq : InRange q) (h1 : (2 : ℚ) ^ e ≤ |q|) (h2 : |q| < 2 ^ (e + 1)) :
    -1022 ≤ e ∧ e ≤ 1023 := by
  obtain ⟨hlo, hhi⟩ := hq
  have hmin := (zpow_lt_zpow_iff_right₀ (one_lt_two (α := ℚ))).1 (hlo.trans_lt h2)
  have hlt : (2 : ℚ) ^ e < 2 ^ (1024 : ℤ) := by
    refine (h1.trans_lt hhi).trans_le ?_
    rw [show (2 : ℚ) ^ (1024 : ℤ) = 2 ^ 1024 from zpow_natCast 2 1024]
    exact sub_le_self _ (by positivity)
  have hmax := (zpow_lt_zpow_iff_right₀ (one_lt_two (α := ℚ))).1 hlt
  omega

/-- Below the overflow bound no significand of the greatest exponent is rounded up to `2^53`. -/
theorem exponent_lt_of_carry {q : ℚ} {e : ℤ} (hq : InRange q) (h1 : (2 : ℚ) ^ e ≤ |q|) (h2 : |q| < 2 ^ (e + 1))
    (hcarry : rheQ (|q| / 2 ^ (e - 52)) = 2 ^ 53) : e + 1 ≤ 1023 := by
  obtain ⟨-, hmax⟩ := exponent_bounds_of_inRange hq h1 h2
  by_contra hbig
  obtain rfl : e = 1023 := by omega
  have hround : 2 ^ 53 ≤ rheQ (|q| / 2 ^ (971 : ℤ)) := hcarry.ge
  rw [even_le_rheQ (by norm_num), le_div_iff₀ (by positivity), Int.cast_pow, Int.cast_ofNat, ← overflowBound_eq] at hround
  obtain ⟨-, hhi⟩ := hq
  exact hround.not_gt hhi

/-- The exponent field of a normal number. -/
theorem ofInt_exponent_ne_zero {e : ℤ} (h1 : -1022 ≤ e) (h2 : e ≤ 1023) : BitVec.ofInt 11 (e + 1023) ≠ 0 := by
  intro h0
  have hfield := toNat_ofInt_of_lt (w := 11) (z := e + 1023) (by omega) (by omega)
  have hzero : ((0 : BitVec 11).toNat : ℤ) = 0 := rfl
  rw [h0, hzero] at hfield
  omega

/-- What R146's pattern holds, for a `q` in range: a normal number of value `roundedTo q e`. -/
theorem IsRne64.value {q : ℚ} {x : Data} (h : IsRne64 q x) (hq : InRange q) :
    ∃ e : ℤ, (2 : ℚ) ^ e ≤ |q| ∧ |q| < 2 ^ (e + 1) ∧ f64valQ x = some (roundedTo q e) ∧ x.extractLsb' 52 11 ≠ 0 := by
  rcases h with ⟨h0, -⟩ | ⟨-, e, m, h1, h2, hm, hx⟩
  · exact absurd h0 hq.ne_zero
  obtain ⟨hemin, hemax⟩ := exponent_bounds_of_inRange hq h1 h2
  obtain ⟨hm1, hm2⟩ := hm ▸ significand_bounds h1 h2.le
  have hvalue : roundedTo q e = signOf q * m * 2 ^ (e - 52) := by rw [roundedTo, hm]
  refine ⟨e, h1, h2, ?_⟩
  rw [hvalue, hx]
  split
  · next hcarry =>
    have he := exponent_lt_of_carry hq h1 h2 (hm.symm.trans hcarry)
    have hpack := f64valQ_packFields q (e := e + 1) (m := 2 ^ 52) (by omega) he le_rfl (by norm_num)
    rw [sub_self, show BitVec.ofInt 52 0 = 0 from rfl] at hpack
    refine ⟨hpack.trans (congrArg some ?_), (packFields_exponent _ _ _).trans_ne (ofInt_exponent_ne_zero (by omega) he)⟩
    rw [hcarry, show e + 1 - 52 = e - 52 + 1 by ring, zpow_add₀ two_ne_zero, zpow_one]
    push_cast
    ring
  · next hno =>
    exact ⟨f64valQ_packFields q hemin hemax hm1 (lt_of_le_of_ne hm2 hno),
      (packFields_exponent _ _ _).trans_ne (ofInt_exponent_ne_zero hemin hemax)⟩

/-- A value of at most 53 significant bits is rounded to itself. -/
theorem roundedTo_of_exact {q : ℚ} {e j : ℤ} {M : ℕ} (h1 : (2 : ℚ) ^ e ≤ |q|) (hM : M < 2 ^ 53) (hq : |q| = M * (2 : ℚ) ^ j) :
    roundedTo q e = q := by
  have hj : e - 52 ≤ j := by
    have hlt : (2 : ℚ) ^ e < 2 ^ (53 + j) := by
      rw [zpow_add₀ two_ne_zero]
      refine h1.trans_lt (hq.trans_lt ?_)
      gcongr
      exact_mod_cast hM
    have := (zpow_lt_zpow_iff_right₀ (one_lt_two (α := ℚ))).1 hlt
    omega
  obtain ⟨n, hn⟩ := Int.eq_ofNat_of_zero_le (Int.sub_nonneg_of_le hj)
  have hint : |q| / 2 ^ (e - 52) = ((M * 2 ^ n : ℕ) : ℤ) := by
    rw [div_eq_iff (by positivity), hq, show j = (n : ℤ) + (e - 52) by omega, zpow_add₀ two_ne_zero, zpow_natCast]
    push_cast
    ring
  have hround : (rheQ (|q| / 2 ^ (e - 52)) : ℚ) = |q| / 2 ^ (e - 52) := by rw [hint, rheQ_intCast]
  rw [roundedTo, hround, mul_assoc, div_mul_cancel₀ _ (by positivity), signOf_mul_abs]

/-- Exact rounding, with 0 among the values. -/
theorem IsRne64.value_of_exact {q : ℚ} {x : Data} (h : IsRne64 q x) (hq : q = 0 ∨ InRange q) {M : ℕ} {j : ℤ} (hM : M < 2 ^ 53)
    (hexact : |q| = M * (2 : ℚ) ^ j) : f64valQ x = some q := by
  rcases hq with rfl | hq
  · rcases h with ⟨-, rfl⟩ | ⟨h0, -⟩
    · simp [f64valQ]
    · exact absurd rfl h0
  · obtain ⟨e, h1, -, hx, -⟩ := h.value hq
    rw [hx, roundedTo_of_exact h1 hM hexact]

/-- Settles O42: the machine's tests are the bounds of the range, inside which its exponent and significand are the rule's. -/
theorem nearestBinary64 : Obligations.NearestBinary64 := by
  intro num den hden q
  refine ⟨fun hq => ?_, fun h0 hout => rne64_eq_none hden h0 ?_⟩
  · obtain ⟨x, hx, hrne⟩ := rne64_isRne64 hden hq
    exact ⟨x, hx, hrne, fun ⟨M, j, hM, hexact⟩ => hrne.value_of_exact hq hM hexact⟩
  · rintro ⟨hlo, hhi⟩
    rcases hout with h | h
    · exact hlo.not_gt h
    · exact h.not_gt hhi

end Sys2Proof.Machine
end

section
/-! SUPPORT. Proofs about P2N and N2P (41_timestamp_ops.md R147 to R151): P2N is one rounding of `x * 2^32`, N2P one rounding of
the signed difference from K, and where the second is exact the conversions invert each other. -/

namespace Sys2Proof.Machine

/-! ### Values on the grid of the format -/

/-- The fraction the machine computes has the value of R144. -/
theorem f64valQ_of_f64val {b : Data} {n : ℤ} {d : ℕ} (h : f64val b = some (n, d)) : f64valQ b = some ((n : ℚ) / d) := by
  obtain ⟨hval, -, -⟩ := binary64Values b
  rw [← hval, h, Option.map_some]

/-- A finite pattern has a fraction, with a positive denominator. -/
theorem exists_f64val_of_f64valQ {b : Data} {x : ℚ} (h : f64valQ b = some x) :
    ∃ n d, f64val b = some (n, d) ∧ 0 < d ∧ x = (n : ℚ) / d := by
  obtain ⟨hval, hpos, -⟩ := binary64Values b
  rw [h, Option.map_eq_some_iff] at hval
  obtain ⟨⟨n, d⟩, hnd, hx⟩ := hval
  exact ⟨n, d, hnd, hpos n d hnd, hx.symm⟩

/-- The exponent of the last place of a pattern: subnormals share that of the least normal numbers (R144). -/
def lastPlace (b : Data) : ℤ := max ((b.extractLsb' 52 11).toNat : ℤ) 1 - 1075

/-- A value is fewer than `2^53` units of the last place. -/
theorem exists_int_of_f64valQ {b : Data} {x : ℚ} (h : f64valQ b = some x) :
    ∃ z : ℤ, |z| < 2 ^ 53 ∧ x = z * (2 : ℚ) ^ lastPlace b := by
  have hfrac := (b.extractLsb' 0 52).isLt
  have hsign (k : ℕ) : |(-1 : ℤ) ^ k| = 1 := by rw [abs_pow, abs_neg, abs_one, one_pow]
  simp only [f64valQ] at h
  split at h
  · cases h
  · split at h <;> obtain rfl := Option.some.inj h
    · next hsub =>
      refine ⟨(-1) ^ (b.extractLsb' 63 1).toNat * (b.extractLsb' 0 52).toNat, ?_, ?_⟩
      · rw [abs_mul, hsign, one_mul, Nat.abs_cast]
        omega
      · rw [lastPlace, hsub, show max ((0 : ℕ) : ℤ) 1 - 1075 = -1074 from rfl, Int.cast_mul, Int.cast_pow,
          Int.cast_neg, Int.cast_one, Int.cast_natCast]
    · next hnorm =>
      refine ⟨(-1) ^ (b.extractLsb' 63 1).toNat * (2 ^ 52 + (b.extractLsb' 0 52).toNat : ℕ), ?_, ?_⟩
      · rw [abs_mul, hsign, one_mul, Nat.abs_cast]
        omega
      · rw [lastPlace, max_eq_left (by omega)]
        push_cast
        rfl

/-- Multiples of a power of two are multiples of every smaller one. -/
theorem exists_int_mul_zpow (z : ℤ) {i j : ℤ} (h : j ≤ i) : ∃ n : ℤ, z * (2 : ℚ) ^ i = n * (2 : ℚ) ^ j := by
  obtain ⟨k, hk⟩ := Int.eq_ofNat_of_zero_le (Int.sub_nonneg_of_le h)
  refine ⟨z * 2 ^ k, ?_⟩
  rw [show i = k + j by omega, zpow_add₀ two_ne_zero, zpow_natCast]
  push_cast
  ring

/-- A value of magnitude `2^k` or more is a multiple of `2^(k-52)`. -/
theorem exists_int_of_le_abs {b : Data} {x : ℚ} {k : ℤ} (h : f64valQ b = some x) (hk : (2 : ℚ) ^ k ≤ |x|) :
    ∃ n : ℤ, x = n * (2 : ℚ) ^ (k - 52) := by
  obtain ⟨z, hz, rfl⟩ := exists_int_of_f64valQ h
  refine exists_int_mul_zpow z ?_
  have hlt : (2 : ℚ) ^ k < 2 ^ (53 + lastPlace b) := by
    refine hk.trans_lt ?_
    rw [abs_mul, abs_of_pos (show (0 : ℚ) < 2 ^ lastPlace b by positivity), zpow_add₀ two_ne_zero]
    gcongr
    exact_mod_cast hz
  have := (zpow_lt_zpow_iff_right₀ (one_lt_two (α := ℚ))).1 hlt
  omega

/-! ### P2N -/

/-- The offset K of R142. -/
theorem epochK_eq : ((Config.epochK : ℕ) : ℤ) = 0x83AA7E8000000000 := rfl

/-- Whole seconds and rounded fraction, put together, are `x * 2^32` rounded once (R149): the whole seconds are an even number of
units. -/
theorem rheQ_mul_two_pow (x : ℚ) : ⌊x⌋ * 2 ^ 32 + rheQ ((x - ⌊x⌋) * 2 ^ 32) = rheQ (x * 2 ^ 32) := by
  have hround := rheQ_add_two_mul ((x - ⌊x⌋) * 2 ^ 32) (⌊x⌋ * 2 ^ 31)
  rw [show (x - ⌊x⌋) * 2 ^ 32 + 2 * ((⌊x⌋ * 2 ^ 31 : ℤ) : ℚ) = x * 2 ^ 32 by push_cast; ring] at hround
  rw [hround]
  ring

/-- The machine's fixed-point time is that rounding. -/
theorem posixFixed_eq (num : ℤ) {den : ℕ} (hden : 0 < den) : posixFixed num den = rheQ ((num : ℚ) / den * 2 ^ 32) := by
  have hfrac := div_sub_floor_eq num hden
  rw [← rheQ_mul_two_pow, hfrac, Rat.floor_intCast_div_natCast, posixFixed, rhe_eq_rheQ _ hden]
  congr 2
  push_cast
  ring

/-- P2N of a finite pattern (R149). -/
theorem posixToNtp_eq {wdata : Data} {x : ℚ} (h : f64valQ wdata = some x) :
    posixToNtp wdata =
      if 0 ≤ rheQ (x * 2 ^ 32) + 0x83AA7E8000000000 ∧ rheQ (x * 2 ^ 32) + 0x83AA7E8000000000 < 2 ^ 64 then
        some (BitVec.ofInt 64 (rheQ (x * 2 ^ 32) + 0x83AA7E8000000000)) else none := by
  obtain ⟨num, den, hnd, hden, rfl⟩ := exists_f64val_of_f64valQ h
  simp only [posixToNtp, hnd, posixFixed_eq num hden, epochK_eq]
  split
  · rw [if_neg (by omega)]
  · rw [if_pos (by omega)]

/-- P2N of an infinity or a NaN. -/
theorem posixToNtp_eq_none {wdata : Data} (h : f64valQ wdata = none) : posixToNtp wdata = none := by
  obtain ⟨hval, -, -⟩ := binary64Values wdata
  rw [h, Option.map_eq_none_iff] at hval
  rw [posixToNtp, hval]

/-- Settles O43: the whole seconds and the fraction of R147 add up to the one rounding of R149. -/
theorem p2nConverts : Obligations.P2nConverts := by
  refine fun s wdata hs => ⟨fun h => exec_p2n_of_none hs (posixToNtp_eq_none h), fun x h => ?_⟩
  intro w lo t
  have hfloor : (0 : ℚ) ≤ x - w := sub_nonneg.2 (Int.floor_le x)
  have hceil : x - w ≤ 1 := by
    have := (Int.lt_floor_add_one x).le
    exact sub_le_iff_le_add'.2 this
  have ht : t = rheQ (x * 2 ^ 32) + 0x83AA7E8000000000 := by rw [← rheQ_mul_two_pow x]
  have hntp := posixToNtp_eq h
  rw [← ht] at hntp
  refine ⟨le_rheQ ?_, rheQ_le ?_, fun hin => ?_, fun hout => ?_⟩
  · push_cast
    positivity
  · push_cast
    linarith
  · exact exec_p2n_of_some hs (hntp.trans (if_pos hin))
  · exact exec_p2n_of_none hs (hntp.trans (if_neg (by omega)))

/-- Settles O44: the one rounding, and the units of the last place from exponent field 1043 on. -/
theorem p2nRoundsOnce : Obligations.P2nRoundsOnce := by
  refine fun wdata x h => ⟨posixToNtp_eq h, fun hexp => ?_⟩
  obtain ⟨z, -, rfl⟩ := exists_int_of_f64valQ h
  have hlast : -32 ≤ lastPlace wdata := by
    unfold lastPlace
    omega
  obtain ⟨n, hn⟩ := exists_int_mul_zpow z hlast
  refine ⟨n, ?_⟩
  rw [hn, zpow_neg, mul_assoc]
  norm_num

/-- The range of the rounding, as a range of the number: the ties at both ends go to the even side. -/
theorem fixed_range_iff (x : ℚ) :
    (0 ≤ rheQ (x * 2 ^ 32) + 0x83AA7E8000000000 ∧ rheQ (x * 2 ^ 32) + 0x83AA7E8000000000 < 2 ^ 64) ↔
      -2208988800 - 1 / 2 ^ 33 ≤ x ∧ x < 2085978496 - 1 / 2 ^ 33 := by
  have hlo := even_le_rheQ (n := -0x83AA7E8000000000) (by norm_num) (x * 2 ^ 32)
  have hhi := even_le_rheQ (n := 2 ^ 64 - 0x83AA7E8000000000) (by norm_num) (x * 2 ^ 32)
  refine and_congr ?_ ?_
  · rw [← neg_le_iff_add_nonneg, hlo]
    push_cast
    constructor <;> intro h <;> linarith
  · rw [← lt_sub_iff_add_lt, ← not_le, hhi, not_le]
    push_cast
    constructor <;> intro h <;> linarith

/-- P2N accepts the finite patterns of the range. -/
theorem exists_posixToNtp_iff (wdata : Data) :
    (∃ t, posixToNtp wdata = some t) ↔
      ∃ x, f64valQ wdata = some x ∧ -2208988800 - 1 / 2 ^ 33 ≤ x ∧ x < 2085978496 - 1 / 2 ^ 33 := by
  cases hx : f64valQ wdata with
  | none => simp [posixToNtp_eq_none hx]
  | some x =>
    rw [posixToNtp_eq hx]
    simp only [fixed_range_iff, Option.some.injEq, exists_eq_left']
    split <;> simp_all

/-- Within the range the grid of the format is wider than `2^-33` at both ends, so that no accepted pattern lies past them. -/
theorem accepted_bounds {wdata : Data} {x : ℚ} (h : f64valQ wdata = some x) (hlo : -2208988800 - 1 / 2 ^ 33 ≤ x)
    (hhi : x < 2085978496 - 1 / 2 ^ 33) : -2208988800 ≤ x ∧ x ≤ 2085978496 - 1 / 2 ^ 22 := by
  constructor
  · by_contra hlt
    obtain ⟨n, rfl⟩ := exists_int_of_le_abs (k := 31) h (by rw [abs_of_neg (by linarith)]; norm_num; linarith)
    norm_num at hlo hlt
    have below : n < -4632585279897600 := by exact_mod_cast (show (n : ℚ) < -4632585279897600 by linarith)
    have above : -4632585279897601 < n := by exact_mod_cast (show (-4632585279897601 : ℚ) < n by linarith)
    omega
  · by_contra hgt
    obtain ⟨n, rfl⟩ := exists_int_of_le_abs (k := 30) h (by rw [abs_of_pos (by linarith)]; norm_num; linarith)
    norm_num at hhi hgt
    have below : n < 8749227949686784 := by exact_mod_cast (show (n : ℚ) < 8749227949686784 by linarith)
    have above : 8749227949686783 < n := by exact_mod_cast (show (8749227949686783 : ℚ) < n by linarith)
    omega

/-- Settles O45: the range of the rounding, the grid of the format at its ends, and the four patterns there evaluated. -/
theorem p2nDomain : Obligations.P2nDomain := by
  have first : f64valQ 0xC1E0754FD0000000 = some (-2208988800) := by
    rw [f64valQ_of_f64val (show _ = some (-4632585279897600, 2097152) by decide +kernel)]
    norm_num
  have last : f64valQ 0x41DF15605FFFFFFF = some (2085978496 - 1 / 2 ^ 22) := by
    rw [f64valQ_of_f64val (show _ = some (8749227949686783, 4194304) by decide +kernel)]
    norm_num
  have pastLast : f64valQ 0x41DF156060000000 = some 2085978496 := by
    rw [f64valQ_of_f64val (show _ = some (8749227949686784, 4194304) by decide +kernel)]
    norm_num
  refine ⟨exists_posixToNtp_iff, fun wdata t x ht hx => ?_, ⟨first, by decide +kernel, by decide +kernel⟩,
    last, by decide +kernel, pastLast, by decide +kernel⟩
  obtain ⟨x', hx', hlo, hhi⟩ := (exists_posixToNtp_iff wdata).1 ⟨t, ht⟩
  obtain rfl := Option.some.inj (hx.symm.trans hx')
  exact accepted_bounds hx hlo hhi

end Sys2Proof.Machine
end

section
/-! SUPPORT. Proofs about N2P and the round trips (41_timestamp_ops.md R148, R151): a signed 32.32 number is always in the range
of the rounding, and exact numbers come back as they were. -/

namespace Sys2Proof.Machine

/-! ### Fixed-point numbers as binary64 -/

/-- The magnitude of a fraction over a power of two. -/
theorem abs_div_two_pow (z : ℤ) (k : ℕ) : |(z : ℚ) / 2 ^ k| = ((|z| : ℤ) : ℚ) / 2 ^ k := by
  rw [abs_div, Int.cast_abs, abs_pow, abs_two]

/-- Fractions over a power of two are in range, unless 0, far past any timestamp. -/
theorem inRange_div_two_pow {z : ℤ} {k : ℕ} (h0 : z ≠ 0) (hk : k ≤ 1022) (hz : |z| < 2 ^ 200) :
    InRange ((z : ℚ) / 2 ^ k) := by
  have hone : (1 : ℚ) ≤ (|z| : ℤ) := by exact_mod_cast Int.one_le_abs h0
  have hbound : ((|z| : ℤ) : ℚ) < 2 ^ 200 := by exact_mod_cast hz
  rw [InRange, abs_div_two_pow]
  constructor
  · calc (2 : ℚ) ^ (-1022 : ℤ) ≤ 2 ^ (-k : ℤ) := zpow_le_zpow_right₀ one_le_two (by omega)
      _ = 1 / 2 ^ k := by rw [zpow_neg, zpow_natCast, one_div]
      _ ≤ (|z| : ℤ) / 2 ^ k := by gcongr
  · calc ((|z| : ℤ) : ℚ) / 2 ^ k ≤ (|z| : ℤ) := div_le_self (by linarith) (one_le_pow₀ one_le_two)
      _ < 2 ^ 200 := hbound
      _ ≤ (2 ^ 53 - 1 / 2) * 2 ^ (200 : ℤ) := le_mul_of_one_le_left (by positivity) (by norm_num)
      _ ≤ (2 ^ 53 - 1 / 2) * 2 ^ (971 : ℤ) :=
        mul_le_mul_of_nonneg_left (zpow_le_zpow_right₀ one_le_two (by norm_num)) (by norm_num)
      _ = 2 ^ 1024 - 2 ^ 970 := overflowBound_eq.symm

/-- 0 or in range: R146 defines the rounding. -/
theorem zero_or_inRange (z : ℤ) {k : ℕ} (hk : k ≤ 1022) (hz : |z| < 2 ^ 200) :
    (z : ℚ) / 2 ^ k = 0 ∨ InRange ((z : ℚ) / 2 ^ k) := by
  by_cases h0 : z = 0
  · exact .inl (by rw [h0, Int.cast_zero, zero_div])
  · exact .inr (inRange_div_two_pow h0 hk hz)

/-- A signed 32.32 number is rounded to its nearest pattern. -/
theorem fx2s_isRne64 {s : ℤ} (hs : |s| < 2 ^ 200) : ∃ x, fx2s s = some x ∧ IsRne64 ((s : ℚ) / 2 ^ 32) x := by
  have h := rne64_isRne64 (num := s) (den := 2 ^ 32) (by norm_num)
  rw [Nat.cast_pow, Nat.cast_ofNat] at h
  exact h (zero_or_inRange s (by norm_num) hs)

/-- A signed 32.32 number of at most 53 significant bits keeps its value. -/
theorem fx2s_of_exact {s : ℤ} {M n : ℕ} (hs : |s| < 2 ^ 200) (hM : M < 2 ^ 53) (hexact : |s| = M * 2 ^ n) :
    ∃ x, fx2s s = some x ∧ IsRne64 ((s : ℚ) / 2 ^ 32) x ∧ f64valQ x = some ((s : ℚ) / 2 ^ 32) := by
  obtain ⟨x, hx, hrne⟩ := fx2s_isRne64 hs
  refine ⟨x, hx, hrne, hrne.value_of_exact (j := (n : ℤ) - 32) (zero_or_inRange s (by norm_num) hs) hM ?_⟩
  have hcast : |(s : ℚ)| = M * 2 ^ n := by exact_mod_cast hexact
  rw [abs_div, hcast, abs_pow, abs_two, zpow_sub₀ two_ne_zero, zpow_natCast, mul_div_assoc]
  rfl

theorem rheQ_abs_nonneg (q : ℚ) (e : ℤ) : 0 ≤ rheQ (|q| / 2 ^ (e - 52)) := by
  refine le_rheQ ?_
  push_cast
  positivity

/-- Rounding to 53 bits does not pass a bound that has 53 bits. -/
theorem abs_roundedTo_le {q : ℚ} {e : ℤ} {B : ℕ} (he : (2 : ℚ) ^ e ≤ |q|) (hB : B < 2 ^ 53) (hq : |q| ≤ B) :
    |roundedTo q e| ≤ B := by
  have hpos : (0 : ℚ) < 2 ^ (e - 52) := by positivity
  have hlt : (2 : ℚ) ^ e < 2 ^ (53 : ℤ) := (he.trans hq).trans_lt (by exact_mod_cast hB)
  have := (zpow_lt_zpow_iff_right₀ (one_lt_two (α := ℚ))).1 hlt
  obtain ⟨n, hn⟩ := Int.eq_ofNat_of_zero_le (show 0 ≤ 52 - e by omega)
  have hunit : (2 : ℚ) ^ n * 2 ^ (e - 52) = 1 := by
    rw [← zpow_natCast, ← zpow_add₀ two_ne_zero, show (n : ℤ) + (e - 52) = 0 by omega, zpow_zero]
  have hround : rheQ (|q| / 2 ^ (e - 52)) ≤ (B * 2 ^ n : ℕ) := by
    refine rheQ_le ((div_le_iff₀ hpos).2 ?_)
    push_cast
    rw [mul_assoc, hunit, mul_one]
    exact hq
  have hroundQ : (rheQ (|q| / 2 ^ (e - 52)) : ℚ) ≤ B * 2 ^ n := by exact_mod_cast hround
  have hnonneg : (0 : ℚ) ≤ rheQ (|q| / 2 ^ (e - 52)) := by exact_mod_cast rheQ_abs_nonneg q e
  rw [roundedTo, abs_mul, abs_mul, abs_signOf, one_mul, abs_of_nonneg hnonneg, abs_of_pos hpos]
  calc (rheQ (|q| / 2 ^ (e - 52)) : ℚ) * 2 ^ (e - 52) ≤ B * 2 ^ n * 2 ^ (e - 52) := by gcongr
    _ = B := by rw [mul_assoc, hunit, mul_one]

/-- Rounding keeps the sign. -/
theorem roundedTo_nonneg {q : ℚ} (hq : 0 ≤ q) (e : ℤ) : 0 ≤ roundedTo q e := by
  have hnonneg : (0 : ℚ) ≤ rheQ (|q| / 2 ^ (e - 52)) := by exact_mod_cast rheQ_abs_nonneg q e
  have hsign : signOf q = 1 := by rw [signOf, decide_eq_false (not_lt.2 hq)]; rfl
  rw [roundedTo, hsign, one_mul]
  positivity

theorem roundedTo_nonpos {q : ℚ} (hq : q < 0) (e : ℤ) : roundedTo q e ≤ 0 := by
  have hnonneg : (0 : ℚ) ≤ rheQ (|q| / 2 ^ (e - 52)) := by exact_mod_cast rheQ_abs_nonneg q e
  have hsign : signOf q = -1 := by rw [signOf, decide_eq_true hq, Bool.toNat_true, pow_one]
  rw [roundedTo, hsign, neg_one_mul, neg_mul, neg_nonpos]
  positivity

/-- The value of a rounded number between two bounds of 53 bits, one of each sign, stays between them; and the pattern is +0 or a
normal number. -/
theorem IsRne64.value_bounds {q : ℚ} {x : Data} {A B : ℕ} (h : IsRne64 q x) (hq : q = 0 ∨ InRange q) (hA : A < 2 ^ 53)
    (hB : B < 2 ^ 53) (hqA : -(A : ℚ) ≤ q) (hqB : q ≤ B) :
    ∃ y, f64valQ x = some y ∧ -(A : ℚ) ≤ y ∧ y ≤ B ∧ (x = 0 ∨ x.extractLsb' 52 11 ≠ 0) := by
  have hA0 : (0 : ℚ) ≤ A := by positivity
  have hB0 : (0 : ℚ) ≤ B := by positivity
  rcases hq with rfl | hq
  · rcases h with ⟨-, rfl⟩ | ⟨h0, -⟩
    · exact ⟨0, by simp [f64valQ], by linarith, hB0, .inl rfl⟩
    · exact absurd rfl h0
  · obtain ⟨e, he, -, hx, hexp⟩ := h.value hq
    refine ⟨_, hx, ?_, ?_, .inr hexp⟩
    · rcases lt_or_ge q 0 with hneg | hpos
      · exact (abs_le.1 (abs_roundedTo_le he hA (by rw [abs_of_neg hneg]; linarith))).1
      · exact le_trans (by linarith) (roundedTo_nonneg hpos e)
    · rcases lt_or_ge q 0 with hneg | hpos
      · exact (roundedTo_nonpos hneg e).trans hB0
      · exact (abs_le.1 (abs_roundedTo_le he hB (by rwa [abs_of_nonneg hpos]))).2

/-! ### N2P -/

/-- N2P is one rounding of the signed difference from K. -/
theorem ntpToPosix_eq (t : Data) : ntpToPosix t = fx2s ((t.toNat : ℤ) - 0x83AA7E8000000000) := by
  simp only [ntpToPosix, fx2s, epochK_eq, Int.ediv_mul_add_emod]

/-- The difference of a timestamp from K, in units of 2^-32 seconds. -/
theorem ntpDifference_bounds (t : Data) :
    -0x83AA7E8000000000 ≤ (t.toNat : ℤ) - 0x83AA7E8000000000 ∧ (t.toNat : ℤ) - 0x83AA7E8000000000 < 2 ^ 63 := by
  have := t.isLt
  omega

theorem abs_ntpDifference_lt (t : Data) : |(t.toNat : ℤ) - 0x83AA7E8000000000| < 2 ^ 200 := by
  have := ntpDifference_bounds t
  rw [abs_lt]
  constructor <;> linarith

/-- The same difference in seconds. -/
theorem ntpQuotient_bounds (t : Data) :
    -((2208988800 : ℕ) : ℚ) ≤ (((t.toNat : ℤ) - 0x83AA7E8000000000 : ℤ) : ℚ) / 2 ^ 32 ∧
      (((t.toNat : ℤ) - 0x83AA7E8000000000 : ℤ) : ℚ) / 2 ^ 32 ≤ (2085978496 : ℕ) := by
  have ht : (t.toNat : ℚ) ≤ 2 ^ 64 := by exact_mod_cast t.isLt.le
  have ht0 : (0 : ℚ) ≤ t.toNat := by positivity
  push_cast
  rw [le_div_iff₀ (by positivity), div_le_iff₀ (by positivity)]
  constructor <;> linarith

/-- N2P in a running block answers the rounding. -/
theorem exec_n2p_of_some {s : State} {wdata x : Data} (hs : s.fault = 0) (hx : ntpToPosix wdata = some x) :
    exec (.n2p wdata) s = .next { s with rsp := some ⟨0, x⟩ } := by
  show execN2p wdata s = _
  rw [execN2p, unlessHalted_of_running hs, hx]
  exact respondOk_eq s x

/-- Settles O46: the two halves of the difference are those of the timestamp, and every difference is in range. -/
theorem n2pConverts : Obligations.N2pConverts := by
  intro s wdata hs d whole frac
  have ht := wdata.isLt
  have hfrac : frac = ((wdata.extractLsb' 0 32).toNat : ℤ) := by
    rw [BitVec.extractLsb'_toNat, Nat.shiftRight_zero]
    omega
  have hwhole : whole = ((wdata.extractLsb' 32 32).toNat : ℤ) - 2208988800 := by
    rw [BitVec.extractLsb'_toNat, Nat.shiftRight_eq_div_pow]
    omega
  have hq : (whole : ℚ) + (frac : ℚ) / 2 ^ 32 = (d : ℚ) / 2 ^ 32 := by
    have hsum : whole * 2 ^ 32 + frac = d := Int.ediv_mul_add_emod d (2 ^ 32)
    rw [← hsum]
    push_cast
    ring
  obtain ⟨hlo, hhi⟩ := ntpQuotient_bounds wdata
  obtain ⟨x, hx, hrne⟩ := fx2s_isRne64 (abs_ntpDifference_lt wdata)
  obtain ⟨y, hy, hyA, hyB, hexp⟩ := hrne.value_bounds (A := 2208988800) (B := 2085978496)
    (zero_or_inRange d (by norm_num) (abs_ntpDifference_lt wdata)) (by norm_num) (by norm_num) hlo hhi
  refine ⟨hfrac, hwhole, x, y, exec_n2p_of_some hs ((ntpToPosix_eq wdata).trans hx), hq ▸ hrne, hy, by exact_mod_cast hyA,
    by exact_mod_cast hyB, ?_, hexp⟩
  rintro rfl
  rcases hexp with h | h
  · exact absurd h (by decide)
  · exact h (by decide)

/-! ### The round trips -/

/-- The timestamp of an accepted number is K and its rounding. -/
theorem toNat_of_posixToNtp {wdata t : Data} {x : ℚ} (hx : f64valQ wdata = some x) (ht : posixToNtp wdata = some t) :
    (t.toNat : ℤ) - 0x83AA7E8000000000 = rheQ (x * 2 ^ 32) := by
  rw [posixToNtp_eq hx] at ht
  split at ht
  · next hin =>
    obtain ⟨h0, h1⟩ := hin
    obtain rfl := Option.some.inj ht
    rw [toNat_ofInt_of_lt h0 h1, add_sub_cancel_right]
  · cases ht

/-- A number rounded to units of 2^-32 keeps at most 53 significant bits: its own, or those of a magnitude below `2^52` units. -/
theorem exists_abs_rheQ_eq {wdata : Data} {x : ℚ} (hx : f64valQ wdata = some x) :
    ∃ M n : ℕ, M < 2 ^ 53 ∧ |rheQ (x * 2 ^ 32)| = M * 2 ^ n := by
  obtain ⟨z, hz, hxz⟩ := exists_int_of_f64valQ hx
  rcases le_or_gt (-32) (lastPlace wdata) with hbig | hsmall
  · obtain ⟨n, hn⟩ := Int.eq_ofNat_of_zero_le (show 0 ≤ lastPlace wdata + 32 by omega)
    have hint : x * 2 ^ 32 = ((z * 2 ^ n : ℤ) : ℚ) := by
      rw [hxz, show lastPlace wdata = (n : ℤ) - 32 by omega, zpow_sub₀ two_ne_zero, zpow_natCast]
      push_cast
      field_simp
      norm_num
    refine ⟨z.natAbs, n, by rw [Int.abs_eq_natAbs] at hz; omega, ?_⟩
    rw [hint, rheQ_intCast, abs_mul, abs_pow, abs_two, Int.natCast_natAbs]
  · have hle : |x * 2 ^ 32| ≤ ((2 ^ 52 : ℤ) : ℚ) := by
      have hzQ : |(z : ℚ)| ≤ 2 ^ 53 := by exact_mod_cast hz.le
      have hplace : (2 : ℚ) ^ lastPlace wdata ≤ 2 ^ (-33 : ℤ) := zpow_le_zpow_right₀ one_le_two (by omega)
      rw [hxz, abs_mul, abs_mul, abs_of_pos (show (0 : ℚ) < 2 ^ lastPlace wdata by positivity)]
      calc |(z : ℚ)| * 2 ^ lastPlace wdata * |(2 : ℚ) ^ 32| ≤ 2 ^ 53 * 2 ^ (-33 : ℤ) * |(2 : ℚ) ^ 32| := by gcongr
        _ = ((2 ^ 52 : ℤ) : ℚ) := by norm_num
    obtain ⟨hlo, hhi⟩ := abs_le.1 hle
    have hmax : rheQ (x * 2 ^ 32) ≤ 2 ^ 52 := rheQ_le hhi
    have hmin : -2 ^ 52 ≤ rheQ (x * 2 ^ 32) := le_rheQ (by push_cast at hlo ⊢; exact hlo)
    refine ⟨(rheQ (x * 2 ^ 32)).natAbs, 0, by omega, ?_⟩
    rw [Int.natCast_natAbs, pow_zero, mul_one]

/-- The sign field of R146 is that of R144. -/
theorem ofBool_decide_signed (S : BitVec 1) {v : ℚ} (hv : 0 < v) : BitVec.ofBool (decide ((-1) ^ S.toNat * v < 0)) = S := by
  rcases BitVec.eq_zero_or_eq_one S with rfl | rfl
  · rw [decide_eq_false (by simpa using hv.le)]
    rfl
  · rw [decide_eq_true (by simpa using hv)]
    rfl

theorem abs_signed (k : ℕ) {v : ℚ} (hv : 0 < v) : |(-1) ^ k * v| = v := by
  rw [abs_mul, abs_pow, abs_neg, abs_one, one_pow, one_mul, abs_of_pos hv]

/-- The pattern of a normal number is the one R146 defines for its value: `e` and `m` are read off its fields. -/
theorem isRne64_packFields (S : BitVec 1) (E : BitVec 11) (F : BitVec 52) :
    IsRne64 ((-1) ^ S.toNat * ((2 ^ 52 + F.toNat) * 2 ^ ((E.toNat : ℤ) - 1075))) (packFields S E F) := by
  have hF : (F.toNat : ℚ) < 2 ^ 52 := by exact_mod_cast F.isLt
  have hv : (0 : ℚ) < (2 ^ 52 + F.toNat) * 2 ^ ((E.toNat : ℤ) - 1075) := by positivity
  have hscale (n : ℕ) : (2 : ℚ) ^ ((E.toNat : ℤ) - 1075 + n) = 2 ^ n * 2 ^ ((E.toNat : ℤ) - 1075) := by
    rw [zpow_add₀ two_ne_zero, zpow_natCast, mul_comm]
  refine .inr ⟨?_, (E.toNat : ℤ) - 1023, (2 ^ 52 + F.toNat : ℕ), ?_, ?_, ?_, ?_⟩
  · rw [← abs_pos, abs_signed _ hv]
    exact hv
  · rw [abs_signed _ hv, show (E.toNat : ℤ) - 1023 = E.toNat - 1075 + (52 : ℕ) by push_cast; ring, hscale]
    gcongr
    exact le_add_of_nonneg_right (by positivity)
  · rw [abs_signed _ hv, show (E.toNat : ℤ) - 1023 + 1 = E.toNat - 1075 + (53 : ℕ) by push_cast; ring, hscale]
    gcongr
    linarith
  · rw [abs_signed _ hv, show (E.toNat : ℤ) - 1023 - 52 = E.toNat - 1075 by ring, mul_div_cancel_right₀ _ (by positivity)]
    exact_mod_cast (rheQ_intCast _).symm
  · have hm : ((2 ^ 52 + F.toNat : ℕ) : ℤ) ≠ 2 ^ 53 := by
      have := F.isLt
      omega
    rw [if_neg hm, ofBool_decide_signed S hv, show (E.toNat : ℤ) - 1023 + 1023 = E.toNat by ring,
      show ((2 ^ 52 + F.toNat : ℕ) : ℤ) - 2 ^ 52 = F.toNat by push_cast; ring, BitVec.ofInt_natCast, BitVec.ofInt_natCast,
      BitVec.ofNat_toNat, BitVec.ofNat_toNat, BitVec.setWidth_eq, BitVec.setWidth_eq]
    rfl

/-- A pattern whose exponent field is not 0 is the rounding of its own value. -/
theorem isRne64_of_normal {b : Data} {x : ℚ} (hx : f64valQ b = some x) (hnorm : (b.extractLsb' 52 11).toNat ≠ 0) :
    IsRne64 x b := by
  have hpack := isRne64_packFields (b.extractLsb' 63 1) (b.extractLsb' 52 11) (b.extractLsb' 0 52)
  rw [packFields_of_fields, ← mul_assoc] at hpack
  simp only [f64valQ, if_neg hnorm] at hx
  split at hx
  · cases hx
  · obtain rfl := Option.some.inj hx
    exact hpack

/-- A pattern of exponent field 0 is below every normal number. -/
theorem abs_lt_of_subnormal {b : Data} {x : ℚ} (hx : f64valQ b = some x) (hsub : (b.extractLsb' 52 11).toNat = 0) :
    |x| < (2 : ℚ) ^ (-1021 : ℤ) := by
  obtain ⟨z, hz, rfl⟩ := exists_int_of_f64valQ hx
  have hlast : lastPlace b = -1074 := by rw [lastPlace, hsub]; rfl
  have hzQ : |(z : ℚ)| < 2 ^ (53 : ℤ) := by exact_mod_cast hz
  have hpos : (0 : ℚ) < 2 ^ (-1074 : ℤ) := by positivity
  rw [hlast, abs_mul, abs_of_pos hpos, show (-1021 : ℤ) = 53 + -1074 by norm_num, zpow_add₀ two_ne_zero]
  gcongr

/-- The two patterns of value 0. -/
theorem eq_zero_of_f64valQ {b : Data} (hb : f64valQ b = some 0) : b = 0 ∨ b = 0x8000000000000000 := by
  have hexp : b.extractLsb' 52 11 = 0 := by
    by_contra h
    rcases isRne64_of_normal hb (fun h0 => h (BitVec.eq_of_toNat_eq h0)) with ⟨-, rfl⟩ | ⟨h0, -⟩
    · exact h rfl
    · exact h0 rfl
  have hfrac : b.extractLsb' 0 52 = 0 := by
    have hzero : (b.extractLsb' 52 11).toNat = 0 := by rw [hexp]; rfl
    simp only [f64valQ, if_pos hzero] at hb
    split at hb
    · omega
    · simpa [BitVec.toNat_eq, zpow_eq_zero_iff] using hb
  have hpack := packFields_of_fields b
  rw [hexp, hfrac] at hpack
  rcases BitVec.eq_zero_or_eq_one (b.extractLsb' 63 1) with h | h
  · exact .inl (hpack.symm.trans (by rw [h]; rfl))
  · exact .inr (hpack.symm.trans (by rw [h]; rfl))

/-- A whole number of units of 2^-32 is 0 or a normal number. -/
theorem normal_of_fixed {b : Data} {x : ℚ} {n : ℤ} (hb : f64valQ b = some x) (hn : x * 2 ^ 32 = n) (h0 : x ≠ 0) :
    (b.extractLsb' 52 11).toNat ≠ 0 := by
  intro hsub
  have hlt := abs_lt_of_subnormal hb hsub
  have hn0 : n ≠ 0 := by
    rintro rfl
    exact h0 (by simpa using hn)
  have hone : (1 : ℚ) ≤ |(n : ℚ)| := by exact_mod_cast Int.one_le_abs hn0
  rw [← hn, abs_mul] at hone
  have hsmall : |x| * |(2 : ℚ) ^ 32| < 2 ^ (-1021 : ℤ) * |(2 : ℚ) ^ 32| := by gcongr
  have hcap : (2 : ℚ) ^ (-1021 : ℤ) * |(2 : ℚ) ^ 32| ≤ 1 := by
    rw [abs_pow, abs_two, ← zpow_natCast, ← zpow_add₀ two_ne_zero]
    exact zpow_le_one_of_nonpos₀ one_le_two (by norm_num)
  linarith

/-- A pattern that rounds a whole number of units of 2^-32 is the pattern of that number, -0 apart. -/
theorem pattern_of_fixed {wdata b : Data} {x : ℚ} {n : ℤ} (hx : f64valQ wdata = some x) (hn : x * 2 ^ 32 = n)
    (hb : IsRne64 x b) : b = wdata ∨ wdata = 0x8000000000000000 ∧ b = 0 := by
  by_cases h0 : x = 0
  · subst h0
    obtain rfl : b = 0 := hb.unique (.inl ⟨rfl, rfl⟩)
    exact (eq_zero_of_f64valQ hx).imp Eq.symm fun h => ⟨h, rfl⟩
  · exact .inl (hb.unique (isRne64_of_normal hx (normal_of_fixed hx hn h0)))

/-- Settles O47: a rounded number has at most 53 significant bits, and so has a difference below `2^53`, so that N2P is exact. -/
theorem timestampRoundTrip : Obligations.TimestampRoundTrip := by
  refine ⟨fun wdata t x hx ht => ?_, fun t ht => ?_⟩
  · have hd := toNat_of_posixToNtp hx ht
    obtain ⟨M, n, hM, hexact⟩ := exists_abs_rheQ_eq hx
    have hsmall := abs_ntpDifference_lt t
    rw [hd] at hsmall
    obtain ⟨b, hb, hrne, hval⟩ := fx2s_of_exact hsmall hM hexact
    have hround := abs_rheQ_sub_le (x * 2 ^ 32)
    refine ⟨b, _, by rw [ntpToPosix_eq, hd, hb], hval, rfl, ?_, ?_⟩
    · rw [abs_le] at hround ⊢
      constructor <;> linarith
    · rintro ⟨k, hk⟩
      have hy : ((rheQ (x * 2 ^ 32) : ℤ) : ℚ) / 2 ^ 32 = x := by
        rw [hk, rheQ_intCast, ← hk, mul_div_cancel_right₀ _ (by positivity)]
      rw [hy] at hrne
      exact ⟨hy, pattern_of_fixed hx hk hrne⟩
  · have hM : (((t.toNat : ℤ) - 0x83AA7E8000000000).natAbs) < 2 ^ 53 := by
      rw [Int.abs_eq_natAbs] at ht
      omega
    obtain ⟨b, hb, -, hval⟩ := fx2s_of_exact (n := 0) (abs_ntpDifference_lt t) hM (by rw [Int.natCast_natAbs, pow_zero, mul_one])
    refine ⟨b, (ntpToPosix_eq t).trans hb, ?_⟩
    have hlt := t.isLt
    rw [posixToNtp_eq hval, div_mul_cancel₀ _ (by positivity), rheQ_intCast, sub_add_cancel, if_pos (by omega),
      BitVec.ofInt_natCast, BitVec.ofNat_toNat, BitVec.setWidth_eq]

end Sys2Proof.Machine
end

section
/-! SUPPORT. Proofs about the assembler's line forms (30_encoding.md R90). -/

namespace Sys2Proof.Machine

/-- A line of one selector operand. -/
theorem map_selOperand (c : Sel → Instr) (n : Nat) :
    (selOperand n).map c = if n < 2 ^ 8 then some (c (BitVec.ofNat 8 n)) else none := by
  unfold selOperand
  split <;> rfl

/-- A line of one data operand. -/
theorem map_dataOperand (c : Data → Instr) (n : Nat) :
    (dataOperand n).map c = if n < 2 ^ 64 then some (c (BitVec.ofNat 64 n)) else none := by
  unfold dataOperand
  split <;> rfl

/-- A line of both operands assembles when both fit. -/
theorem assembleBoth_eq (c : Sel → Data → Instr) (n v : Nat) :
    assembleBoth c n v =
      if n < 2 ^ 8 ∧ v < 2 ^ 64 then some (c (BitVec.ofNat 8 n) (BitVec.ofNat 64 v)) else none := by
  unfold assembleBoth selOperand dataOperand
  by_cases hn : n < 2 ^ 8
  · by_cases hv : v < 2 ^ 64
    · rw [if_pos hn, if_pos hv, if_pos ⟨hn, hv⟩]
    · rw [if_pos hn, if_neg hv, if_neg fun h : n < 2 ^ 8 ∧ v < 2 ^ 64 => hv h.2]
  · rw [if_neg hn, if_neg fun h : n < 2 ^ 8 ∧ v < 2 ^ 64 => hn h.1]

/-- The move of a line whose command is given by a test of its operands. -/
theorem move_of_ite {a : AsmLine} {p : Prop} [Decidable p] {i : Instr} (h : a.command = if p then some i else none) :
    a.move = if p then some (.command (encode i) a.message) else none := by
  rw [AsmLine.move, h]
  split <;> rfl

/-- Settles O52: the test of each line form's operands, and the word of its command, which decodes to it. -/
theorem assembledLinesAreCommandWords : Obligations.AssembledLinesAreCommandWords := by
  refine ⟨fun n => move_of_ite (a := .getf n) (map_selOperand .getf n),
    fun n v => move_of_ite (a := .setf n v) (assembleBoth_eq .setf n v),
    fun n => move_of_ite (a := .getb n) (map_selOperand .getb n),
    fun n v => move_of_ite (a := .setb n v) (assembleBoth_eq .setb n v), rfl,
    fun n m => move_of_ite (a := .mload n m) (map_dataOperand .mload n),
    fun n => move_of_ite (a := .tagset n) (map_dataOperand .tagset n), rfl,
    fun n => move_of_ite (a := .p2n n) (map_dataOperand .p2n n),
    fun n => move_of_ite (a := .n2p n) (map_dataOperand .n2p n), rfl, fun a w m h => ?_⟩
  obtain ⟨i, hi, hmove⟩ := Option.map_eq_some_iff.1 h
  cases hmove
  exact ⟨i, hi, decode_encode i, rfl, rfl⟩

end Sys2Proof.Machine
end

section
/-! SUPPORT. Proofs about the host's arithmetic (42_host_sequences.md R175, R180 to R182): validation, exact differences against
wrapping ones, and the rounded results, which stay on a grid where every rounding is defined. -/

namespace Sys2Proof.Machine

/-- Settles O54: the tests in the order of `validate`. -/
theorem clientValidation : Obligations.ClientValidation := by
  refine fun t1 o st x m => ⟨fun h => if_pos h, fun h hbad => ?_, fun h hst hx hm => ?_⟩
  · rw [validate, if_neg (not_not.2 h), if_pos hbad]
  · have hgood : ¬ (st = 0 ∨ x = 0 ∨ m ≠ 4 ∧ m ≠ 5) := by tauto
    rw [validate, if_neg (not_not.2 h), if_neg hgood]

/-! ### Exact differences -/

theorem abs_delayFx_lt (t1 t2 t3 t4 : Data) : |delayFx t1 t2 t3 t4| < 2 ^ 65 := by
  have h1 := t1.isLt
  have h2 := t2.isLt
  have h3 := t3.isLt
  have h4 := t4.isLt
  rw [abs_lt, delayFx]
  omega

theorem abs_offsetFx_lt (t1 t2 t3 t4 : Data) : |offsetFx t1 t2 t3 t4| < 2 ^ 65 := by
  have h1 := t1.isLt
  have h2 := t2.isLt
  have h3 := t3.isLt
  have h4 := t4.isLt
  rw [abs_lt, offsetFx]
  omega

/-- A timestamp is the residue of its own number. -/
theorem ofInt_toNat (t : Data) : BitVec.ofInt 64 (t.toNat : ℤ) = t := by
  rw [BitVec.ofInt_natCast, BitVec.ofNat_toNat, BitVec.setWidth_eq]

theorem ofInt_sub (a b : ℤ) : BitVec.ofInt 64 (a - b) = BitVec.ofInt 64 a - BitVec.ofInt 64 b := by
  rw [Int.sub_eq_add_neg, BitVec.ofInt_add, BitVec.ofInt_neg, BitVec.sub_eq_add_neg]

theorem ofInt_delayFx (t1 t2 t3 t4 : Data) : BitVec.ofInt 64 (delayFx t1 t2 t3 t4) = (t4 - t1) - (t3 - t2) := by
  rw [delayFx, ofInt_sub, ofInt_sub, ofInt_sub, ofInt_toNat, ofInt_toNat, ofInt_toNat, ofInt_toNat]

theorem ofInt_offsetFx (t1 t2 t3 t4 : Data) : BitVec.ofInt 64 (offsetFx t1 t2 t3 t4) = (t2 - t1) + (t3 - t4) := by
  rw [offsetFx, BitVec.ofInt_add, ofInt_sub, ofInt_sub, ofInt_toNat, ofInt_toNat, ofInt_toNat, ofInt_toNat]

/-- A signed 64-bit number is read back from its residue. -/
theorem toInt_ofInt_of_fits {z : ℤ} (h0 : -2 ^ 63 ≤ z) (h1 : z < 2 ^ 63) : (BitVec.ofInt 64 z).toInt = z := by
  rw [BitVec.toInt_ofInt]
  exact Int.bmod_eq_of_le (by omega) (by omega)

/-- Settles O59: wrapping arithmetic computes the residue of the exact difference. -/
theorem exactDifferencesAreTwosComplement : Obligations.ExactDifferencesAreTwosComplement := by
  refine fun t1 t2 t3 t4 => ⟨abs_delayFx_lt t1 t2 t3 t4, abs_offsetFx_lt t1 t2 t3 t4, fun ⟨h0, h1⟩ => ?_, fun ⟨h0, h1⟩ => ?_⟩
  · rw [← ofInt_delayFx, toInt_ofInt_of_fits h0 h1]
  · rw [← ofInt_offsetFx, toInt_ofInt_of_fits h0 h1]

/-! ### Rounded results -/

/-- A rounded value is a whole number of units of its last place. -/
theorem exists_int_roundedTo (q : ℚ) (e : ℤ) : ∃ z : ℤ, roundedTo q e = z * (2 : ℚ) ^ (e - 52) :=
  ⟨(-1) ^ (decide (q < 0)).toNat * rheQ (|q| / 2 ^ (e - 52)), by rw [roundedTo, signOf]; push_cast; rfl⟩

/-- A number on the grid of 2^-84, of magnitude at most 2^34: so is every rounded difference of timestamps. -/
def OnGrid (v : ℚ) : Prop := ∃ z : ℤ, v = (z : ℚ) / 2 ^ 84 ∧ |z| ≤ 2 ^ 118

/-- A multiple of 2^-84 is on the grid when its magnitude is. -/
theorem onGrid_of_abs_le {v : ℚ} {z : ℤ} (hz : v = z * (2 : ℚ) ^ (-84 : ℤ)) (hv : |v| ≤ 2 ^ 34) : OnGrid v := by
  have hdiv : v = (z : ℚ) / 2 ^ 84 := by
    rw [hz, zpow_neg, div_eq_mul_inv]
    rfl
  rw [hdiv, abs_div_two_pow, div_le_iff₀ (by positivity)] at hv
  have hcast : ((|z| : ℤ) : ℚ) ≤ ((2 ^ 118 : ℤ) : ℚ) := hv.trans (by norm_num)
  exact ⟨z, hdiv, by exact_mod_cast hcast⟩

/-- A difference of timestamps is rounded to a number on the grid: unless 0 it is at least 2^-32, its last place at least 2^-84. -/
theorem fx2s_grid {s : ℤ} (hs : |s| < 2 ^ 65) :
    ∃ x v, fx2s s = some x ∧ IsRne64 ((s : ℚ) / 2 ^ 32) x ∧ f64valQ x = some v ∧ OnGrid v := by
  obtain ⟨x, hx, hrne⟩ := fx2s_isRne64 (hs.trans (by norm_num))
  by_cases h0 : s = 0
  · subst h0
    have hval := hrne.value_of_exact (M := 0) (j := 0) (.inl (by norm_num)) (by norm_num) (by norm_num)
    exact ⟨x, _, hx, hrne, hval, 0, by norm_num, by norm_num⟩
  have hone : (1 : ℚ) ≤ (|s| : ℤ) := by exact_mod_cast Int.one_le_abs h0
  have hmax : ((|s| : ℤ) : ℚ) ≤ 2 ^ 65 := by exact_mod_cast hs.le
  have hlow : (2 : ℚ) ^ (-32 : ℤ) ≤ |(s : ℚ) / 2 ^ 32| := by
    rw [abs_div_two_pow, le_div_iff₀ (by positivity)]
    exact le_trans (by norm_num) hone
  have hhigh : |(s : ℚ) / 2 ^ 32| ≤ ((2 ^ 34 : ℕ) : ℚ) := by
    rw [abs_div_two_pow, div_le_iff₀ (by positivity)]
    exact hmax.trans (by norm_num)
  obtain ⟨e, he1, he2, hval, -⟩ := hrne.value (inRange_div_two_pow h0 (by norm_num) (hs.trans (by norm_num)))
  have hexp := (zpow_lt_zpow_iff_right₀ (one_lt_two (α := ℚ))).1 (hlow.trans_lt he2)
  obtain ⟨z, hz⟩ := exists_int_roundedTo ((s : ℚ) / 2 ^ 32) e
  obtain ⟨w, hw⟩ := exists_int_mul_zpow z (show -84 ≤ e - 52 by omega)
  have hbound := abs_roundedTo_le he1 (by norm_num) hhigh
  exact ⟨x, _, hx, hrne, hval, onGrid_of_abs_le (hz.trans hw) (hbound.trans (by norm_num))⟩

/-- Half a number on the grid, and its sum with another one, have a defined rounding. -/
theorem OnGrid.zero_or_inRange_add_half {u v : ℚ} (hu : OnGrid u) (hv : OnGrid v) : u + v / 2 = 0 ∨ InRange (u + v / 2) := by
  obtain ⟨z, rfl, hz⟩ := hu
  obtain ⟨w, rfl, hw⟩ := hv
  have hsum : (z : ℚ) / 2 ^ 84 + w / 2 ^ 84 / 2 = (2 * z + w : ℤ) / 2 ^ 85 := by
    push_cast
    ring
  have hbound : |2 * z + w| < 2 ^ 200 := by
    rw [abs_le] at hz hw
    rw [abs_lt]
    omega
  exact hsum ▸ zero_or_inRange _ (by norm_num) hbound

theorem onGrid_zero : OnGrid 0 := ⟨0, by norm_num, by norm_num⟩

/-- Halving a finite pattern (R180). -/
theorem fhalf_isRne64 {a : Data} {u : ℚ} (ha : f64valQ a = some u) (hu : u / 2 = 0 ∨ InRange (u / 2)) :
    ∃ x, fhalf a = some x ∧ IsRne64 (u / 2) x ∧ f64valQ x = some (u / 2) := by
  obtain ⟨n, d, hnd, hd, hval⟩ := exists_f64val_of_f64valQ ha
  have hq : (n : ℚ) / (2 * d : ℕ) = u / 2 := by
    rw [hval]
    push_cast
    ring
  obtain ⟨x, hx, hrne⟩ := rne64_isRne64 (num := n) (den := 2 * d) (by omega) (hq ▸ hu)
  rw [hq] at hrne
  obtain ⟨z, hz, hexact⟩ := exists_int_of_f64valQ ha
  refine ⟨x, by rw [fhalf, hnd]; exact hx, hrne, hrne.value_of_exact (M := z.natAbs) (j := lastPlace a - 1) hu ?_ ?_⟩
  · rw [Int.abs_eq_natAbs] at hz
    omega
  · rw [hexact, zpow_sub₀ two_ne_zero, zpow_one, mul_div_assoc, abs_mul, Nat.cast_natAbs, Int.cast_abs,
      abs_of_pos (show (0 : ℚ) < 2 ^ lastPlace a / 2 by positivity)]

/-- Adding two finite patterns (R182). -/
theorem fadd_isRne64 {a b : Data} {u v : ℚ} (ha : f64valQ a = some u) (hb : f64valQ b = some v)
    (huv : u + v = 0 ∨ InRange (u + v)) : ∃ x, fadd a b = some x ∧ IsRne64 (u + v) x := by
  obtain ⟨n, d, hnd, hd, hu⟩ := exists_f64val_of_f64valQ ha
  obtain ⟨m, e, hme, he, hv⟩ := exists_f64val_of_f64valQ hb
  have hdQ : (d : ℚ) ≠ 0 := by exact_mod_cast hd.ne'
  have heQ : (e : ℚ) ≠ 0 := by exact_mod_cast he.ne'
  have hq : ((n * e + m * d : ℤ) : ℚ) / (d * e : ℕ) = u + v := by
    rw [hu, hv]
    push_cast
    field_simp
  obtain ⟨x, hx, hrne⟩ := rne64_isRne64 (num := n * e + m * d) (den := d * e) (Nat.mul_pos hd he) (hq ▸ huv)
  exact ⟨x, by rw [fadd, hnd, hme]; exact hx, hq ▸ hrne⟩

/-- The results of an accepted exchange (R180, R182): every rounding in them is defined, and the halving is exact. -/
theorem syncResult_spec (t1 t2 t3 t4 : Data) : ∃ (r : SyncResult) (x y : Data) (vx vy : ℚ),
    ntpToPosix t4 = some x ∧ syncResult t1 t2 t3 t4 x = some r ∧
    IsRne64 ((delayFx t1 t2 t3 t4 : ℚ) / 2 ^ 32) r.delay ∧ IsRne64 ((offsetFx t1 t2 t3 t4 : ℚ) / 2 ^ 32) y ∧
    f64valQ y = some vy ∧ IsRne64 (vy / 2) r.offset ∧ f64valQ r.offset = some (vy / 2) ∧ f64valQ x = some vx ∧
    IsRne64 (vx + vy / 2) r.corrected := by
  have ht4 : |(t4.toNat : ℤ) - 0x83AA7E8000000000| < 2 ^ 65 := by
    have := ntpDifference_bounds t4
    rw [abs_lt]
    omega
  obtain ⟨x, vx, hx, -, hvx, hxgrid⟩ := fx2s_grid ht4
  obtain ⟨d, -, hd, hdrne, -⟩ := fx2s_grid (abs_delayFx_lt t1 t2 t3 t4)
  obtain ⟨y, vy, hy, hyrne, hvy, hygrid⟩ := fx2s_grid (abs_offsetFx_lt t1 t2 t3 t4)
  have hhalf := onGrid_zero.zero_or_inRange_add_half hygrid
  rw [zero_add] at hhalf
  obtain ⟨theta, htheta, hthetaRne, hthetaVal⟩ := fhalf_isRne64 hvy hhalf
  obtain ⟨c, hc, hcRne⟩ := fadd_isRne64 hvx hthetaVal (hxgrid.zero_or_inRange_add_half hygrid)
  refine ⟨⟨d, theta, c⟩, x, y, _, _, (ntpToPosix_eq t4).trans hx, ?_, hdrne, hyrne, hvy, hthetaRne, hthetaVal, hvx, hcRne⟩
  rw [syncResult, delaySeconds, hd, offsetSeconds, hy]
  simp only [htheta, correctedTime, hc, Option.map_some]

end Sys2Proof.Machine
end

section
/-! SUPPORT. Proofs about the host's programs (42_host_sequences.md): what a call of each command gives on a running block, a
message built field by field, and the sequences of the client and the server. -/

namespace Sys2Proof.Machine

/-! ### Calls -/

/-- A command that answers OK succeeds as a call. -/
theorem call_of_exec {s t : State} {i : Instr} {m : MsgWord} {d : Data} (h : exec i { s with msgIn := m } = .next t)
    (hr : t.rsp = some ⟨0, d⟩) : call s i m = some (t, d) := by
  have hstep : step (s.pushMove (.command (encode i) m)) = .next t :=
    (step_of_legal (s := s.pushMove (.command (encode i) m)) rfl (decode_encode i)).trans h
  have htransact : transact s (encode i) m = some (t, ⟨0, d⟩) := by
    unfold transact
    simp only [hstep, hr]
  simp [call, htransact]

/-- The block after a call that reads: its ports show the call, its registers are as before. -/
def State.answered (s : State) (d : Data) : State := { s with msgIn := 0, rsp := some ⟨0, d⟩ }

@[simp] theorem State.answered_buf (s : State) (d : Data) : (s.answered d).buf = s.buf := rfl
@[simp] theorem State.answered_tag (s : State) (d : Data) : (s.answered d).tag = s.tag := rfl
@[simp] theorem State.answered_tagValid (s : State) (d : Data) : (s.answered d).tagValid = s.tagValid := rfl
@[simp] theorem State.answered_fault (s : State) (d : Data) : (s.answered d).fault = s.fault := rfl
@[simp] theorem State.answered_msgInt (s : State) (d : Data) : (s.answered d).msgInt = s.msgInt := rfl
@[simp] theorem State.answered_msgOut (s : State) (d : Data) : (s.answered d).msgOut = s.msgOut := rfl
@[simp] theorem State.answered_answered (s : State) (c d : Data) : (s.answered c).answered d = s.answered d := rfl

theorem call_p2n {s : State} {wdata x : Data} (hs : s.fault = 0) (hx : posixToNtp wdata = some x) :
    call s (.p2n wdata) 0 = some (s.answered x, x) :=
  call_of_exec (exec_p2n_of_some (s := { s with msgIn := 0 }) hs hx) rfl

theorem call_n2p {s : State} {wdata x : Data} (hs : s.fault = 0) (hx : ntpToPosix wdata = some x) :
    call s (.n2p wdata) 0 = some (s.answered x, x) :=
  call_of_exec (exec_n2p_of_some (s := { s with msgIn := 0 }) hs hx) rfl

theorem call_tagget {s : State} (hs : s.fault = 0) : call s .tagget 0 = some (s.answered s.tag, s.tag) :=
  call_of_exec (exec_tagget_of_running (s := { s with msgIn := 0 }) hs) rfl

/-- GETF answers the field's slice of the message shown. -/
theorem call_getf {s : State} {sel : Sel} {f : MessageField} (hs : s.fault = 0) (hf : fieldAt sel = some f) :
    call s (.getf sel) 0 =
      some (s.answered ((s.msgOut.extractLsb' (384 - f.off - f.len) f.len).setWidth 64),
        (s.msgOut.extractLsb' (384 - f.off - f.len) f.len).setWidth 64) := by
  have hvalue : (s.msgOut.extractLsb' (384 - f.off - f.len) f.len).setWidth 64 =
      BitVec.ofNat 64 (s.msgInt / 2 ^ (384 - f.off - f.len) % 2 ^ f.len) := by
    refine BitVec.eq_of_toNat_eq ?_
    rw [BitVec.toNat_setWidth, BitVec.extractLsb'_toNat, s.msgOut_toNat, Nat.shiftRight_eq_div_pow, BitVec.toNat_ofNat]
  rw [hvalue]
  exact call_of_exec (exec_getf_eq_slice (s := { s with msgIn := 0 }) hs hf) rfl

/-- The block after a message and its source were loaded. -/
def State.loadedWith (s : State) (message : MsgWord) (source : Data) : State :=
  { s with buf := Memory.ofMessage message 48, tag := source, tagValid := true, msgIn := message, rsp := some ⟨0, 0⟩ }

theorem call_mload {s : State} (hs : s.fault = 0) (source : Data) (message : MsgWord) :
    call s (.mload source) message = some (s.loadedWith message source, 0) :=
  call_of_exec (exec_mload_of_running (s := { s with msgIn := message }) hs source) rfl

theorem State.loadedWith_msgOut (s : State) (message : MsgWord) (source : Data) :
    (s.loadedWith message source).msgOut = message := State.msgOut_of_ofMessage rfl

/-! ### Building a message -/

/-- A running block without a tag whose message holds `H` in its first `o` wire bits and 0 in the others. -/
def Shows (s : State) (o H : ℕ) : Prop := s.fault = 0 ∧ s.tagValid = false ∧ s.msgInt = H * 2 ^ (384 - o)

/-- One field value to be set: its selector, its entry in the table and the value. -/
abbrev FieldValue := Sel × MessageField × Data

/-- The fields stand in rising order from wire bit `o` on, and their values fit. -/
def FitFrom : ℕ → List FieldValue → Prop
  | _, [] => True
  | o, (sel, f, v) :: rest => fieldAt sel = some f ∧ o ≤ f.off ∧ v.toNat < 2 ^ f.len ∧ FitFrom (f.off + f.len) rest

/-- The first wire bits of a message with one more field, as (their number, their value). -/
def appendField (p : ℕ × ℕ) (w : FieldValue) : ℕ × ℕ :=
  (w.2.1.off + w.2.1.len, p.2 * 2 ^ (w.2.1.off + w.2.1.len - p.1) + w.2.2.toNat)

/-- SETF of a field after all that is set appends the field. -/
theorem Shows.call_setf {s : State} {o H : ℕ} {sel : Sel} {f : MessageField} {v : Data} (h : Shows s o H)
    (hf : fieldAt sel = some f) (ho : o ≤ f.off) (hv : v.toNat < 2 ^ f.len) :
    ∃ t, call s (.setf sel v) 0 = some (t, 0) ∧
      Shows t (appendField (o, H) (sel, f, v)).1 (appendField (o, H) (sel, f, v)).2 := by
  obtain ⟨hs, hvalid, hint⟩ := h
  obtain ⟨hl, -, hend⟩ := fieldAt_bounds hf
  obtain ⟨t, hw⟩ : ∃ t, fieldWrite { s with msgIn := 0 } f.off f.len v.toNat = some t := ⟨_, fieldWrite_eq _ hl hend hv⟩
  refine ⟨_, call_of_exec (exec_setf_of_field (by exact hs) hf hv hw) rfl, (fieldWrite_fault hw).trans hs, ?_, ?_⟩
  · obtain ⟨-, htag⟩ := SameTag.of_fieldWrite hw
    exact htag.trans hvalid
  · have hnew := fieldWrite_msgInt hl hend hv hw
    have hold : s.msgInt = H * 2 ^ (f.off + f.len - o) * 2 ^ (384 - f.off - f.len) := by
      rw [hint, mul_assoc, ← pow_add]
      congr 2
      omega
    have hempty : s.msgInt / 2 ^ (384 - f.off - f.len) % 2 ^ f.len = 0 := by
      rw [hold, Nat.mul_div_cancel _ (by positivity), show f.off + f.len - o = f.off - o + f.len by omega, pow_add,
        ← mul_assoc, Nat.mul_mod_left]
    rw [show State.msgInt { s with msgIn := 0 } = s.msgInt from rfl, hempty, Nat.zero_mul, Nat.sub_zero, hold,
      ← Nat.add_mul, Nat.sub_sub] at hnew
    exact hnew

theorem callAll_cons {s t : State} {i : Instr} {d : Data} (h : call s i 0 = some (t, d)) (rest : List Instr) :
    callAll s (i :: rest) = callAll t rest := by
  simp only [callAll, h]

/-- Setting fields in rising order appends them all. -/
theorem Shows.callAll_setf {ws : List FieldValue} {s : State} {p : ℕ × ℕ} (h : Shows s p.1 p.2) (hfit : FitFrom p.1 ws) :
    ∃ t, callAll s (ws.map fun w => .setf w.1 w.2.2) = some t ∧
      Shows t (ws.foldl appendField p).1 (ws.foldl appendField p).2 := by
  induction ws generalizing s p with
  | nil => exact ⟨s, rfl, h⟩
  | cons w rest ih =>
    obtain ⟨hf, ho, hv, hrest⟩ := hfit
    obtain ⟨u, hu, hshow⟩ := h.call_setf hf ho hv
    obtain ⟨t, ht, hfinal⟩ := ih hshow hrest
    exact ⟨t, (callAll_cons hu _).trans ht, hfinal⟩

/-- MCLR begins a message of no field. -/
theorem call_mclr {s : State} (hs : s.fault = 0) : ∃ t, call s .mclr 0 = some (t, 0) ∧ Shows t 0 0 :=
  ⟨_, call_of_exec (exec_mclr_of_running (s := { s with msgIn := 0 }) hs) rfl, hs, rfl,
    (Memory.readBE_nil _ _).trans (Nat.zero_mul _).symm⟩

/-- A whole message: MCLR, then fields in rising order. -/
theorem callAll_message {s : State} (hs : s.fault = 0) {ws : List FieldValue} (hfit : FitFrom 0 ws) :
    ∃ t, callAll s (.mclr :: ws.map fun w => .setf w.1 w.2.2) = some t ∧
      Shows t (ws.foldl appendField (0, 0)).1 (ws.foldl appendField (0, 0)).2 := by
  obtain ⟨u, hu, hempty⟩ := call_mclr hs
  obtain ⟨t, ht, hshow⟩ := Shows.callAll_setf (p := (0, 0)) hempty hfit
  exact ⟨t, (callAll_cons hu _).trans ht, hshow⟩

/-- A concatenation as a number. -/
theorem toNat_append_eq {m n : ℕ} (x : BitVec m) (y : BitVec n) : (x ++ y).toNat = x.toNat * 2 ^ n + y.toNat := by
  rw [BitVec.toNat_append, ← Nat.shiftLeft_add_eq_or_of_lt y.isLt, Nat.shiftLeft_eq]

/-! ### The client's request -/

/-- The fields of a request (R173). -/
def requestFields (t1 : Data) : List FieldValue :=
  [(selLI, ⟨"LI", 0, 2⟩, 3), (selVN, ⟨"VN", 2, 3⟩, 4), (selMode, ⟨"Mode", 5, 3⟩, 3), (selStratum, ⟨"Stratum", 8, 8⟩, 15),
   (selOriginateTimestamp, ⟨"OriginateTimestamp", 192, 64⟩, t1), (selTransmitTimestamp, ⟨"TransmitTimestamp", 320, 64⟩, t1)]

theorem requestCommands_eq (t1 : Data) :
    requestCommands t1 = .mclr :: (requestFields t1).map fun w => .setf w.1 w.2.2 := rfl

theorem requestFields_fit (t1 : Data) : FitFrom 0 (requestFields t1) := by
  have ht1 := t1.isLt
  simp only [FitFrom, requestFields, and_true]
  exact ⟨rfl, le_rfl, by decide, rfl, by decide, by decide, rfl, by decide, by decide, rfl, by decide, by decide, rfl,
    by decide, ht1, rfl, by decide, ht1⟩

/-- Building a request on a running block. -/
theorem clientSend_eq {s : State} {now t1 : Data} (hs : s.fault = 0) (hnow : posixToNtp now = some t1) :
    ∃ t, clientSend s now = some (t, .requestSent t1, t.msgOut) ∧
      Shows t ((requestFields t1).foldl appendField (0, 0)).1 ((requestFields t1).foldl appendField (0, 0)).2 := by
  obtain ⟨t, ht, hshow⟩ := callAll_message (s := s.answered t1) hs (requestFields_fit t1)
  refine ⟨t, ?_, hshow⟩
  unfold clientSend
  simp only [call_p2n hs hnow, requestCommands_eq, ht]

/-- Settles O53: the six fields one after the other are the digits of the message. -/
theorem clientRequestMessage : Obligations.ClientRequestMessage := by
  intro s now t1 hs hnow
  obtain ⟨t, ht, hrun, -, hint⟩ := clientSend_eq hs hnow
  refine ⟨t, ht, hrun, BitVec.eq_of_toNat_eq ?_⟩
  rw [t.msgOut_toNat, hint]
  show _ = BitVec.toNat (w := 16 + 176 + 64 + 64 + 64) ((0xE30F : BitVec 16) ++ (0 : BitVec 176) ++ t1 ++ (0 : BitVec 64) ++ t1)
  rw [toNat_append_eq, toNat_append_eq, toNat_append_eq, toNat_append_eq]
  simp only [requestFields, List.foldl, appendField, BitVec.ofNat_eq_ofNat, BitVec.toNat_ofNat]
  norm_num
  ring

/-! ### The client's response -/

/-- Settles O55: T4 is converted, then the response and its source are loaded. -/
theorem clientReceivesTheResponse : Obligations.ClientReceivesTheResponse := by
  intro s t1 now t4 source response hs hnow
  refine ⟨(s.answered t4).loadedWith response source, ?_, State.loadedWith_msgOut _ _ _, rfl, rfl, hs⟩
  have hload := call_mload (s := s.answered t4) hs source response
  unfold clientReceive
  simp only [call_p2n hs hnow, hload]

/-- The verdict of R175 on the message shown. -/
def State.verdict (s : State) (t1 : Data) : Option RejectReason :=
  validate t1 (s.msgOut.extractLsb' 128 64) ((s.msgOut.extractLsb' 368 8).setWidth 64) (s.msgOut.extractLsb' 0 64)
    ((s.msgOut.extractLsb' 376 3).setWidth 64)

/-- The four fields of R175 are read, and the block left as they were read from. -/
theorem clientFinish_eq {s : State} (hs : s.fault = 0) (t1 t4 : Data) :
    clientFinish s t1 t4 =
      (s.verdict t1).elim
        (clientAccept (s.answered ((s.msgOut.extractLsb' 376 3).setWidth 64)) t1 (s.msgOut.extractLsb' 0 64) t4)
        fun reason => some (s.answered ((s.msgOut.extractLsb' 376 3).setWidth 64), .rejected reason) := by
  have horiginate {d : Data} := call_getf (s := s.answered d) (sel := selOriginateTimestamp) hs rfl
  have hstratum {d : Data} := call_getf (s := s.answered d) (sel := selStratum) hs rfl
  have htransmit {d : Data} := call_getf (s := s.answered d) (sel := selTransmitTimestamp) hs rfl
  have hmode {d : Data} := call_getf (s := s.answered d) (sel := selMode) hs rfl
  have hfirst := call_getf (s := s) (sel := selOriginateTimestamp) hs rfl
  unfold clientFinish State.verdict
  simp only [hfirst, hstratum, htransmit, hmode, State.answered_answered, State.answered_msgOut, BitVec.setWidth_eq]
  cases validate t1 (s.msgOut.extractLsb' 128 64) ((s.msgOut.extractLsb' 368 8).setWidth 64) (s.msgOut.extractLsb' 0 64)
    ((s.msgOut.extractLsb' 376 3).setWidth 64) <;> rfl

/-- Accepting reads T2 and converts T4. -/
theorem clientAccept_eq {s : State} {t1 t3 t4 x : Data} {r : SyncResult} (hs : s.fault = 0) (hx : ntpToPosix t4 = some x)
    (hr : syncResult t1 (s.msgOut.extractLsb' 64 64) t3 t4 x = some r) :
    clientAccept s t1 t3 t4 = some (s.answered x, .accepted r) := by
  have hreceive := call_getf (s := s) (sel := selReceiveTimestamp) hs rfl
  have hn2p {d : Data} := call_n2p (s := s.answered d) hs hx
  unfold clientAccept
  simp only [hreceive, hn2p, State.answered_answered, BitVec.setWidth_eq, hr, Option.map_some]

/-- Settles O57: the verdict is the reason, and reading is all that was done. -/
theorem rejectionIsAHostOutcome : Obligations.RejectionIsAHostOutcome := by
  intro s t1 t4 reason hs hv
  have hverdict : s.verdict t1 = some reason := hv
  refine ⟨s.answered ((s.msgOut.extractLsb' 376 3).setWidth 64), ?_, hs, rfl, rfl, rfl⟩
  rw [clientFinish_eq hs, hverdict, Option.elim_some]

/-- Settles O56: the results are those of the timestamps in the message. -/
theorem acceptedExchangeResults : Obligations.AcceptedExchangeResults := by
  intro s t1 t4 hs hv t2 t3 d th
  have hverdict : s.verdict t1 = none := hv
  obtain ⟨r, x, y, vx, vy, hx, hr, hresults⟩ := syncResult_spec t1 t2 t3 t4
  obtain ⟨hdelay, hy, hvy, hoffset, hoffsetVal, hvx, hcorrected⟩ := hresults
  have haccept := clientAccept_eq (s := s.answered ((s.msgOut.extractLsb' 376 3).setWidth 64)) (t1 := t1) (t3 := t3) hs hx hr
  refine ⟨s.answered x, r, x, y, vx, vy, ?_, hs, rfl, rfl, rfl, hdelay, hy, hvy, hoffset, hoffsetVal, hx, hvx, hcorrected⟩
  rw [clientFinish_eq hs, hverdict, Option.elim_none]
  exact haccept

/-- A response loaded into a running block ends the exchange, with message and tag in the block. -/
theorem clientFinish_ends {s : State} (hs : s.fault = 0) (t1 t4 : Data) :
    ∃ t phase, clientFinish s t1 t4 = some (t, phase) ∧ t.fault = 0 ∧ t.buf = s.buf ∧ t.tag = s.tag ∧
      ((∃ r, phase = .accepted r) ∨ ∃ reason, phase = .rejected reason) := by
  cases hv : s.verdict t1 with
  | none =>
    obtain ⟨t, r, -, -, -, -, ht, hrun, hbuf, htag, -⟩ := acceptedExchangeResults s t1 t4 hs hv
    exact ⟨t, _, ht, hrun, hbuf, htag, .inl ⟨r, rfl⟩⟩
  | some reason =>
    obtain ⟨t, ht, hrun, hbuf, htag, -⟩ := rejectionIsAHostOutcome s t1 t4 reason hs hv
    exact ⟨t, _, ht, hrun, hbuf, htag, .inr ⟨reason, rfl⟩⟩

/-- Settles O58: the request is built first, and each report leads to one end. -/
theorem clientExchangeEnds : Obligations.ClientExchangeEnds := by
  intro s sendTime receiveTime t1 hs hsend
  obtain ⟨t, ht, hrun, -⟩ := clientRequestMessage s sendTime t1 hs hsend
  refine ⟨fun t4 response source hreceive => ?_, t, ht, hrun, ?_, ?_⟩
  · obtain ⟨u, hu, hmsg, htag, -, hurun⟩ := clientReceivesTheResponse t t1 receiveTime t4 source response hrun hreceive
    obtain ⟨v, phase, hv, hvrun, hbuf, hvtag, hphase⟩ := clientFinish_ends hurun t1 t4
    have hvmsg : v.msgOut = u.msgOut := by rw [State.msgOut, State.msgOut, State.msgInt, State.msgInt, hbuf]
    refine ⟨v, phase, ?_, hvrun, hvmsg.trans hmsg, hvtag.trans htag, hphase⟩
    unfold clientExchange
    simp only [ht, hu, hv]
  · unfold clientExchange
    simp only [ht]
  · unfold clientExchange
    simp only [ht]

/-! ### The server's response -/

/-- The fields of a response up to its transmit time (R184). -/
def responseFields (c : ServerConfig) (treq trx : Data) : List FieldValue :=
  [(selLI, ⟨"LI", 0, 2⟩, c.li), (selVN, ⟨"VN", 2, 3⟩, 4), (selMode, ⟨"Mode", 5, 3⟩, 4),
   (selStratum, ⟨"Stratum", 8, 8⟩, c.stratum), (selReferenceIdentifier, ⟨"ReferenceIdentifier", 96, 32⟩, c.refId),
   (selReferenceTimestamp, ⟨"ReferenceTimestamp", 128, 64⟩, c.reference),
   (selOriginateTimestamp, ⟨"OriginateTimestamp", 192, 64⟩, treq), (selReceiveTimestamp, ⟨"ReceiveTimestamp", 256, 64⟩, trx)]

theorem responseCommands_eq (c : ServerConfig) (treq trx : Data) :
    responseCommands c treq trx = .mclr :: (responseFields c treq trx).map fun w => .setf w.1 w.2.2 := rfl

theorem responseFields_fit {c : ServerConfig} (hli : c.li.toNat < 4) (hst : c.stratum.toNat < 256)
    (hid : c.refId.toNat < 2 ^ 32) (treq trx : Data) : FitFrom 0 (responseFields c treq trx) := by
  have href := c.reference.isLt
  have htreq := treq.isLt
  have htrx := trx.isLt
  simp only [FitFrom, responseFields, and_true]
  exact ⟨rfl, le_rfl, hli, rfl, by decide, by decide, rfl, by decide, by decide, rfl, by decide, hst, rfl, by decide, hid,
    rfl, by decide, href, rfl, by decide, htreq, rfl, by decide, htrx⟩

/-- The transmit time is the last field of the message. -/
theorem serverFinish_eq {s : State} {H : ℕ} {dest txTime ttx : Data} (h : Shows s 320 H) (htx : posixToNtp txTime = some ttx) :
    ∃ t, serverFinish s dest txTime = some (t, t.msgOut, dest) ∧ Shows t 384 (H * 2 ^ 64 + ttx.toNat) := by
  obtain ⟨hs, hvalid, hint⟩ := h
  have hshow : Shows (s.answered ttx) 320 H := ⟨hs, hvalid, hint⟩
  have hfield : fieldAt selTransmitTimestamp = some ⟨"TransmitTimestamp", 320, 64⟩ := rfl
  obtain ⟨t, ht, hfinal⟩ := hshow.call_setf hfield le_rfl ttx.isLt
  refine ⟨t, ?_, by simpa only [appendField, Nat.reduceAdd, Nat.reduceSub] using hfinal⟩
  unfold serverFinish
  simp only [call_p2n hs htx, ht]

/-- A configured value that fits a field, cut to the field. -/
theorem toNat_extractLsb'_of_lt {d : Data} {n : ℕ} (h : d.toNat < 2 ^ n) : (d.extractLsb' 0 n).toNat = d.toNat := by
  rw [BitVec.extractLsb'_toNat, Nat.shiftRight_zero, Nat.mod_eq_of_lt h]

/-- Settles O60: the request is read and its source kept before MCLR, and the nine fields are the digits of the response. -/
theorem serverResponseMessage : Obligations.ServerResponseMessage := by
  intro s c request source rxTime txTime trx ttx hs hli hst hid hrx htx
  obtain ⟨u, hu, hshow⟩ := callAll_message (s := (s.loadedWith request source).answered source) hs
    (responseFields_fit hli hst hid (request.extractLsb' 0 64) trx)
  obtain ⟨t, ht, hrun, hvalid, hint⟩ := serverFinish_eq (dest := source) hshow htx
  refine ⟨t, ?_, hrun, hvalid, BitVec.eq_of_toNat_eq ?_⟩
  · have hload := call_mload hs source request
    have htransmit := call_getf (s := s.loadedWith request source) (sel := selTransmitTimestamp) hs rfl
    have hreceive {d : Data} := call_p2n (s := (s.loadedWith request source).answered d) hs hrx
    have hdest {d : Data} := call_tagget (s := (s.loadedWith request source).answered d) hs
    have htag : (s.loadedWith request source).tag = source := rfl
    unfold serverRespond
    simp only [hload, htransmit, hreceive, hdest, State.answered_answered, State.answered_tag, htag, State.loadedWith_msgOut,
      BitVec.setWidth_eq, responseCommands_eq, hu, ht]
  · rw [t.msgOut_toNat, hint]
    show _ = BitVec.toNat (w := 2 + 3 + 3 + 8 + 80 + 32 + 64 + 64 + 64 + 64)
      (c.li.extractLsb' 0 2 ++ (4 : BitVec 3) ++ (4 : BitVec 3) ++ c.stratum.extractLsb' 0 8 ++ (0 : BitVec 80) ++
        c.refId.extractLsb' 0 32 ++ c.reference ++ request.extractLsb' 0 64 ++ trx ++ ttx)
    rw [toNat_append_eq, toNat_append_eq, toNat_append_eq, toNat_append_eq, toNat_append_eq, toNat_append_eq, toNat_append_eq,
      toNat_append_eq, toNat_append_eq, toNat_extractLsb'_of_lt hli, toNat_extractLsb'_of_lt hst, toNat_extractLsb'_of_lt hid]
    simp only [responseFields, List.foldl, appendField, BitVec.ofNat_eq_ofNat, BitVec.toNat_ofNat]
    norm_num
    ring

end Sys2Proof.Machine
end
